-- ==== Sys2Proof/Word.lean ====
section
/-! DEFINITION. The word types of the PackBits decoder: the byte is its one data unit (R5), and the run-length
field of a control byte has seven bits (R52). -/

namespace Sys2Proof

/-- The data unit, 8 bits (R5). -/
abbrev Byte := BitVec 8

/-- The magnitude field `m = c[6:0]` of a control byte (R52). -/
abbrev RunField := BitVec 7

end Sys2Proof
end

