-- ==== Sys2Proof/Config.lean ====
section
/-! DEFINITION. What the spec leaves to an implementation (R6, I15) and the values it leaves free (I3, I4). Every
one is a constant with no body, so nothing can be proved of its value. -/

namespace Sys2Proof

/-- `IN_LEN_W` less 1. The spec says only that the width is at least 1 (R6). -/
opaque Config.inLenWPred : Nat

/-- `OUT_CAP_W` less 1. The spec says only that the width is at least 1 (R6). -/
opaque Config.outCapWPred : Nat

/-- `IN_LEN_W`, the width of `in_len` and `rd` (R6). Every instance of a system has this one width: DESIGN CHOICE,
log 22. -/
def Config.inLenW : Nat := Config.inLenWPred + 1

/-- `OUT_CAP_W`, the width of `out_cap` and `wr` (R6). Every instance of a system has this one width: DESIGN CHOICE,
log 22. -/
def Config.outCapW : Nat := Config.outCapWPred + 1

/-- A free byte: the first argument numbers the draw (State's `fresh`), the second is an OUT offset. It stands for
an OUT byte read before the host has read DONE (I3, R47, R113; log 24) and for an OUT byte after a RESET in BUSY (I4).
DESIGN CHOICE, log 6. It is one function for every instance and every run, so draws of one number and offset agree between
two instances or two runs, where the spec leaves each byte free: DESIGN CHOICE, log 25. -/
opaque Config.freeByte : Nat → Nat → Byte

end Sys2Proof
end

