-- ==== Sys2Proof/Syntax.lean ====
section
/-! DEFINITION. The instructions, one constructor per row of spec/opcode_table.json, and the abstract syntax of the
assembler notation (R61). -/

namespace Sys2Proof

/-- The three control-unit kinds (R1, R52). An instruction is its control byte: the payload is read from IN by the
meaning, because a unit at the end of the input may lack some of it (R58, R65, R66). DEDUCED, log 19, safe. -/
inductive Instr where
  /-- The no-op, control byte 0x80 (R55). -/
  | nop
  /-- A literal run; `m` is `c[6:0]` (R53). -/
  | lit (m : RunField)
  /-- A repeat run; `m` is `c[6:0]`, never 0 (R54). -/
  | rep (m : RunField)
deriving DecidableEq, Repr

/-- One line of the assembler notation (R61), as data. -/
inductive Item where
  /-- `LIT d0, d1, ..., d(k-1)` -/
  | lit (data : List Byte)
  /-- `REP L, v` -/
  | rep (len : Nat) (v : Byte)
  /-- `NOP` -/
  | nop
  /-- `.byte b0, b1, ...`: raw bytes, a directive and no instruction -/
  | raw (bytes : List Byte)
deriving DecidableEq, Repr

end Sys2Proof
end

