-- ==== Sys2Proof/WellFormed.lean ====
section
/-! DEFINITION. Which terms are control units, and which lines the assembler accepts. -/

namespace Sys2Proof

/-- A term is a control unit when it has a control byte of its own: REP needs `c[6:0] != 0`, since the byte with
`c[7] = 1` and `c[6:0] = 0` is NOP (R54, R55). -/
def Instr.wellFormed : Instr → Bool
  | .nop => true
  | .lit _ => true
  | .rep m => m != 0

/-- What the assembler accepts: `LIT` with 1 to 128 operands, `REP L, v` with `L` from 2 to 128 (R61). -/
def Item.wellFormed : Item → Bool
  | .lit data => decide (1 ≤ data.length) && decide (data.length ≤ 128)
  | .rep len _ => decide (2 ≤ len) && decide (len ≤ 128)
  | .nop => true
  | .raw _ => true

/-- A line that is a control unit, not a directive (R61). -/
def Item.isUnit : Item → Bool
  | .lit _ => true
  | .rep _ _ => true
  | .nop => true
  | .raw _ => false

end Sys2Proof
end

