-- ==== Sys2Proof/Decode.lean ====
section
/-! DEFINITION. Class decode (R52 to R60), the encoder, and the assembler and disassembler of R61. -/

namespace Sys2Proof

/-! ### Fields and run lengths -/

/-- `c[7]`, the sign bit `s` (R52). -/
def signBit (c : Byte) : Bool := c.getLsbD 7

/-- `c[6:0]`, the run-length field `m` (R52). -/
def runField (c : Byte) : RunField := c.extractLsb' 0 7

/-- The declared run length of a LIT, `zext_7(m) + 1` (R53). -/
def litLength (m : RunField) : Nat := m.toNat + 1

/-- The declared run length of a REP, `257 - zext_8(c)` with `c = 128 + m`, so `129 - zext_7(m)` (R54). -/
def repLength (m : RunField) : Nat := 129 - m.toNat

/-! ### The control byte -/

/-- Class decode, in the order R56 gives: LIT, then NOP, then REP. Total: no control byte is illegal. -/
def decodeByte (c : Byte) : Instr :=
  if signBit c = false then .lit (runField c)
  else if c = 0x80#8 then .nop
  else .rep (runField c)

/-- Why a byte sequence decodes to no instruction. -/
inductive DecodeError where
  /-- There is no byte to decode; at the end of the input this is the END case (R64). Safe. -/
  | noControlByte
deriving DecidableEq, Repr

/-- The instruction at the head of a byte sequence, and the bytes after its control byte. -/
def decode : List Byte → Except DecodeError (Instr × List Byte)
  | [] => .error .noControlByte
  | c :: rest => .ok (decodeByte c, rest)

/-- The control byte of an instruction (R53 to R55): sign bit, then the seven bits of `m`. -/
def encodeByte : Instr → Byte
  | .nop => 0x80#8
  | .lit m => 0#1 ++ m
  | .rep m => 1#1 ++ m

/-- The word of an instruction: its control byte. -/
def encode (i : Instr) : List Byte := [encodeByte i]

/-- The declared length of a unit in bytes, control byte included (R58). -/
def unitLength : Instr → Nat
  | .nop => 1
  | .lit m => 1 + litLength m
  | .rep _ => 2

/-! ### The opcode table -/

/-- One row of spec/opcode_table.json: a control byte `c` is the row's when `c && mask = pattern`. -/
structure OpcodeRow where
  mnemonic : String
  mask     : Byte
  pattern  : Byte
deriving DecidableEq, Repr

/-- The rows of the table, in the order of its field `priority`. -/
def opcodeRows : List OpcodeRow :=
  [⟨"NOP", 0xFF#8, 0x80#8⟩, ⟨"LIT", 0x80#8, 0x00#8⟩, ⟨"REP", 0x80#8, 0x80#8⟩]

/-- The mnemonic of the first row that matches a control byte. -/
def rowOf (c : Byte) : Option String :=
  (opcodeRows.find? fun r => c &&& r.mask == r.pattern).map OpcodeRow.mnemonic

/-- The mnemonic of an instruction, as the table spells it. -/
def Instr.mnemonic : Instr → String
  | .nop => "NOP"
  | .lit _ => "LIT"
  | .rep _ => "REP"

/-- The bytes of a table word of `nbits` bits: the first byte is its low byte, and every bit above `nbits` is 0, up
to the longest unit, 129 bytes (R58). -/
def wordBytes (nbits w : Nat) : List Byte :=
  (List.range 129).map fun k => BitVec.ofNat 8 ((w % 2 ^ nbits) >>> (8 * k))

/-- The instruction the decoder reads from a table word. -/
def decodeTableWord (nbits w : Nat) : Option Instr :=
  match decode (wordBytes nbits w) with
  | .ok (i, _) => some i
  | .error _ => none

/-! ### Assembler and disassembler (R61) -/

/-- The bytes of one line; none where the assembler refuses it (R61). -/
def assembleItem (it : Item) : Option (List Byte) :=
  if it.wellFormed then
    match it with
    | .lit data => some (BitVec.ofNat 8 (data.length - 1) :: data)
    | .rep len v => some [BitVec.ofNat 8 (257 - len), v]
    | .nop => some [0x80#8]
    | .raw bytes => some bytes
  else none

/-- The bytes of a program: its lines at increasing IN offsets from 0, in source order (R61). -/
def assemble : List Item → Option (List Byte)
  | [] => some []
  | it :: rest =>
    match assembleItem it, assemble rest with
    | some bytes, some more => some (bytes ++ more)
    | _, _ => none

/-- The output a unit stands for when nothing cuts it short (R53 to R55). -/
def Item.expand : Item → List Byte
  | .lit data => data
  | .rep len v => List.replicate len v
  | .nop => []
  | .raw _ => []

/-- The unit at the head of a byte sequence and the bytes after it; none where the unit runs past the end. -/
def takeUnit : List Byte → Option (Item × List Byte)
  | [] => none
  | c :: rest =>
    match decodeByte c with
    | .nop => some (.nop, rest)
    | .lit m =>
      if litLength m ≤ rest.length then
        some (.lit (rest.take (litLength m)), rest.drop (litLength m))
      else none
    | .rep m =>
      match rest with
      | [] => none
      | v :: rest' => some (.rep (repLength m) v, rest')

/-- Units from the front of a byte sequence, at most `fuel` of them; a last unit that runs past the end is printed
as `.byte` (R61). -/
def disassembleFuel : Nat → List Byte → List Item
  | 0, _ => []
  | fuel + 1, bytes =>
    match bytes with
    | [] => []
    | c :: rest =>
      match takeUnit (c :: rest) with
      | some (it, more) => it :: disassembleFuel fuel more
      | none => [.raw (c :: rest)]

/-- The disassembler (R61): every unit has at least one byte, so the length of the input is fuel enough. -/
def disassemble (bytes : List Byte) : List Item := disassembleFuel bytes.length bytes

end Sys2Proof
end

