-- ==== Sys2Proof/Machine/State.lean ====
section
/-! DEFINITION. The state of the block, of the two buffers and of the host, as plain data, and the state after
reset. -/

namespace Sys2Proof.Machine

/-- The FSM state `st` (R15). -/
inductive Fsm where
  /-- No job has been started since reset. -/
  | idle
  /-- A job is running (STATE = BUSY). -/
  | scan
  /-- The job is over and its result is held. -/
  | done
deriving DecidableEq, Repr

/-- The phase `ph` of the byte-level engine (R86). -/
inductive Phase where
  /-- The unit boundary. -/
  | ctrl
  /-- Literal copy. -/
  | litc
  /-- Repeat value fetch. -/
  | rfetch
  /-- Repeat emit. -/
  | remit
deriving DecidableEq, Repr

/-- The two admitted implementations of the decoder (R85). -/
inductive Impl where
  /-- One control unit a step: the reference (40_control_units.md). -/
  | unitLevel
  /-- One byte a step (45_byte_engine.md). -/
  | byteLevel
deriving DecidableEq, Repr

/-- A buffer the host supplies: one of the two byte spaces (R32 to R34). `cells` holds every byte of the buffer at
its offset; an offset with no cell does not exist. -/
structure Buffer where
  /-- Where offset 0 sits in the system map (`IN_BASE` or `OUT_BASE`, R45); only the overlap rule R81 reads it. -/
  base  : Nat
  /-- (offset, byte), offsets strictly rising. -/
  cells : List Host.Cell
deriving DecidableEq, Repr

/-- What the host can do (R11, R74, R76, R84, R109). -/
inductive HostAction where
  /-- RESET (R109). -/
  | reset
  /-- START(l, c) (R74). -/
  | start (l c : Nat)
  /-- READ(r) (R76). -/
  | read (r : Nat)
  /-- Supply the two buffers, with whatever they already hold (R33, R34, R112). -/
  | place (inBase : Nat) (inBytes : List Byte) (outBase : Nat) (outBytes : List Byte)
  /-- Write one byte of IN (R82). -/
  | writeIn (i : Nat) (b : Byte)
  /-- Read one byte of IN. -/
  | readIn (i : Nat)
  /-- Write one byte of OUT (R80). -/
  | writeOut (j : Nat) (b : Byte)
  /-- Read one byte of OUT (R47). -/
  | readOut (j : Nat)
  /-- Take the result of the job (R77, R84). -/
  | collect
deriving DecidableEq, Repr

/-- Whose move is next (R11, R99). -/
inductive Turn where
  | decoder
  | host (a : HostAction)
deriving DecidableEq, Repr

/-- What the host gets back (R76, R77). -/
inductive Reply where
  /-- The value of register `r`. -/
  | register (r v : Nat)
  /-- A byte of IN. -/
  | inByte (i : Nat) (b : Byte)
  /-- A byte of OUT. -/
  | outByte (j : Nat) (b : Byte)
  /-- The result of a job: `OUT[0 .. OUT_COUNT-1]`, IN_COUNT and the three flags. -/
  | result (bytes : List Byte) (inCount : Nat) (trunc clamp short : Bool)
deriving DecidableEq, Repr

/-- The answer is a STATUS whose STATE field is DONE (R26): what R47 item 2 and R113 make the host wait for. -/
def Reply.saysDone : Reply → Bool
  | .register 0 v => decide (v % 4 = 2)
  | .register (_ + 1) _ => false
  | .inByte _ _ => false
  | .outByte _ _ => false
  | .result _ _ _ _ _ => false

/-- Why a step stops. The block itself has no fault (R95): each of these stands for states that no run reaches. -/
inductive Fault where
  /-- Raised by the decoder's read of an IN offset the host's buffer does not have (R33, R83). Safe. -/
  | noSuchInputByte (offset : Nat)
  /-- Raised by the decoder's write of an OUT offset the host's buffer does not have (R34, R83). Safe. -/
  | noSuchOutputByte (offset : Nat)
  /-- Raised by the byte-level engine in LITC or REMIT with `cnt = 0`, where R88 and R90 enable no step. Safe. -/
  | engineStuck
deriving DecidableEq, Repr

/-- Why a step has no meaning: mostly runs of which the spec says that a model refuses them (41_host_interface.md
section 2). All are safe. -/
inductive Refusal where
  /-- Raised by `exec` for an instruction that has no meaning yet. -/
  | notModelled (mnemonic : String)
  /-- Raised by REP with `m = 0`, which is no control unit (R54, R55). -/
  | illFormedUnit
  /-- Raised by START with an operand that does not fit its register (R74). -/
  | operandTooWide
  /-- Raised by START with `in_len > size_in` (R83, I7). -/
  | inputLongerThanBuffer
  /-- Raised by START with `out_cap > size_out` (R83, I8). -/
  | outputLongerThanBuffer
  /-- Raised by START when `IN[0 .. in_len-1]` and `OUT[0 .. out_cap-1]` overlap (R81, I6). -/
  | buffersOverlap
  /-- Raised by a host access to `IN[0 .. in_len-1]` while BUSY (R82, R84, I5), and by a host write of OUT that
  falls on one of its system addresses (log 10). -/
  | hostTouchesInputWhileBusy
  /-- Raised by a host write of `OUT[0 .. out_cap-1]` while BUSY (R80, I9) or before the host has read DONE (R113,
  log 24), and by a host write of IN that falls on one of its system addresses (log 10). -/
  | hostWritesOutputWhileBusy
  /-- Raised when the host replaces the buffers while BUSY (R82, R84) or before it has read DONE (log 24). -/
  | buffersMovedWhileBusy
  /-- Raised when the host collects a result with no job in DONE, or before a STATUS read has returned DONE for the
  job (R77, R84, R113). -/
  | resultBeforeDone
  /-- Raised by a host access to an offset its own buffer does not have. -/
  | hostOutsideBuffer
  /-- Raised by a START whose buffers another running instance uses (R81, R51), and by a host access through one
  instance's buffers to bytes that a job of another owns (R80, R82, log 14). -/
  | buffersShared
  /-- Raised when a system is asked to step an instance it does not hold. -/
  | noSuchInstance
deriving DecidableEq, Repr

/-- Everything the spec gives the machine (R13, R86, R33, R34), and the model's own fields: which implementation the
instance is, the turns to come, the host's answers, the count of free values drawn, and whether the host has read
DONE. -/
structure State where
  /-- The FSM state (R15). -/
  st : Fsm
  /-- The job's input length (R16). -/
  inLen : Nat
  /-- The job's output capacity (R17). -/
  outCap : Nat
  /-- The read cursor, the program counter (R18). -/
  rd : Nat
  /-- The write cursor (R19). -/
  wr : Nat
  /-- The sticky flag of MalformedStream (R20). -/
  trunc : Bool
  /-- The sticky flag of CapacityExceeded (R21). -/
  clamp : Bool
  /-- The byte-level engine's phase (R86). -/
  ph : Phase
  /-- The byte-level engine's count of bytes still to move (R86). -/
  cnt : Nat
  /-- The byte-level engine's repeat value (R86). -/
  val : Byte
  /-- The IN space (R33). -/
  input : Buffer
  /-- The OUT space (R34). -/
  output : Buffer
  /-- Which admitted implementation this instance is (R85); no step writes it. DESIGN CHOICE, log 4. -/
  impl : Impl
  /-- The turns still to be taken, the next first; when it is empty the turn is the decoder's. DESIGN CHOICE, log 1. -/
  schedule : List Turn
  /-- The answers the host has received, newest first. DESIGN CHOICE, log 15. -/
  replies : List Reply
  /-- How many free values have been drawn. DESIGN CHOICE, log 6. -/
  fresh : Nat
  /-- A STATUS read has returned DONE for the current job (R47, R84, R113): what the host knows, not a register of the
  block. DESIGN CHOICE, log 24. -/
  doneRead : Bool
deriving DecidableEq, Repr

/-- A buffer with no bytes. -/
def Buffer.none : Buffer := { base := 0, cells := [] }

/-- The machine after power-up, which is a RESET (R109, R111): every register of the block at the value R109 gives.
The host has supplied no buffers and has nothing to do yet (DESIGN CHOICE, log 2 and log 11). -/
def State.reset : State :=
  { st := .idle, inLen := 0, outCap := 0, rd := 0, wr := 0, trunc := false, clamp := false
    ph := .ctrl, cnt := 0, val := 0#8
    input := .none, output := .none
    impl := .unitLevel, schedule := [], replies := [], fresh := 0, doneRead := false }

/-- The outcome of a step of this machine. -/
abbrev Result := Host.Outcome State Fault Refusal

end Sys2Proof.Machine
end

