-- ==== Sys2Proof/Machine/Ops.lean ====
section
/-! DEFINITION. The named operations over the buffers and the registers. The block takes no exception and returns
from none (R95, R100, R101), so there is no such operation here; what it records instead is in Flags.lean. -/

namespace Sys2Proof.Machine

/-! ### Memory as a list of cells -/

/-- The byte at an offset; none where the offset does not exist. -/
def Mem.read : List Host.Cell → Nat → Option Byte
  | [], _ => none
  | (k, b) :: m, a => if k = a then some b else Mem.read m a

/-- Store a byte at an offset that exists; a list without the offset is left alone. -/
def Mem.write : List Host.Cell → Nat → Byte → List Host.Cell
  | [], _, _ => []
  | (k, v) :: m, a, b => if k = a then (k, b) :: m else (k, v) :: Mem.write m a b

/-- The canonical form: offsets strictly rising. An unlisted offset has no byte, so no entry is redundant. -/
abbrev Mem.wf (m : List Host.Cell) : Prop := (m.map Prod.fst).Pairwise (· < ·)

/-- The offsets that exist are `0 .. size-1` and no others (R33, R34). -/
abbrev Mem.full (m : List Host.Cell) : Prop := m.map Prod.fst = List.range m.length

/-- Cells for a list of bytes, from offset `k` on. -/
def Mem.ofBytesFrom : Nat → List Byte → List Host.Cell
  | _, [] => []
  | k, b :: bs => (k, b) :: Mem.ofBytesFrom (k + 1) bs

/-- Put bytes at the offsets from `a` on, whether they exist or not. Only a load from outside uses it. -/
def Mem.load (m : List Host.Cell) (a : Nat) (bytes : List Byte) : List Host.Cell :=
  m.filter (fun cell => decide (cell.1 < a)) ++ Mem.ofBytesFrom a bytes
    ++ m.filter (fun cell => decide (a + bytes.length ≤ cell.1))

/-- Add the offsets that do not exist among `n` from offset `a` on, as zero bytes. Only a load from outside uses it. -/
def Mem.ensure (m : List Host.Cell) (a n : Nat) : List Host.Cell :=
  Mem.load m a ((List.range n).map fun k => (Mem.read m (a + k)).getD 0#8)

/-- The bytes at `n` consecutive offsets; none where one of them does not exist. -/
def Mem.readRun (m : List Host.Cell) : Nat → Nat → Option (List Byte)
  | 0, _ => some []
  | n + 1, a =>
    match Mem.read m a, Mem.readRun m n (a + 1) with
    | some b, some bs => some (b :: bs)
    | _, _ => none

/-- The size of a buffer, `size_in` or `size_out` (R33, R34). -/
def Buffer.size (b : Buffer) : Nat := b.cells.length

/-- A buffer made of bytes, offsets from 0 (R32). -/
def Buffer.ofBytes (base : Nat) (bytes : List Byte) : Buffer :=
  { base := base, cells := Mem.ofBytesFrom 0 bytes }

/-- The `n` system addresses from `a` on and the `k` from `b` on have one in common. -/
def rangesMeet (a n b k : Nat) : Bool :=
  decide (0 < n) && decide (0 < k) && decide (a < b + k) && decide (b < a + n)

/-- The first `n` bytes of buffer `a` and the first `k` of buffer `b` share a system address (R81). -/
def Buffer.overlaps (a : Buffer) (n : Nat) (b : Buffer) (k : Nat) : Bool := rangesMeet a.base n b.base k

/-! ### The decoder's two memory primitives (R9, R38) -/

/-- `MemRead(IN:i, 1)`. -/
def memRead (s : State) (i : Nat) : Except Fault Byte :=
  match Mem.read s.input.cells i with
  | some b => .ok b
  | none => .error (.noSuchInputByte i)

/-- `MemWrite(OUT:j, 1, v)`. -/
def memWrite (s : State) (j : Nat) (v : Byte) : Except Fault State :=
  match Mem.read s.output.cells j with
  | some _ => .ok { s with output := { s.output with cells := Mem.write s.output.cells j v } }
  | none => .error (.noSuchOutputByte j)

/-- `for k in 0 .. n-1: MemWrite(OUT:dst + k, 1, MemRead(IN:src + k, 1))` (R65). -/
def copyRun : Nat → Nat → Nat → State → Except Fault State
  | 0, _, _, s => .ok s
  | n + 1, src, dst, s =>
    match memRead s src with
    | .error f => .error f
    | .ok b =>
      match memWrite s dst b with
      | .error f => .error f
      | .ok t => copyRun n (src + 1) (dst + 1) t

/-- `for k in 0 .. n-1: MemWrite(OUT:dst + k, 1, v)` (R66). -/
def fillRun : Nat → Nat → Byte → State → Except Fault State
  | 0, _, _, s => .ok s
  | n + 1, dst, v, s =>
    match memWrite s dst v with
    | .error f => .error f
    | .ok t => fillRun n (dst + 1) v t

/-! ### Registers -/

/-- `in_rem = in_len - rd` (R65). -/
def State.inRem (s : State) : Nat := s.inLen - s.rd

/-- `out_rem = out_cap - wr` (R65, R66). -/
def State.outRem (s : State) : Nat := s.outCap - s.wr

/-- Advance the read cursor by `n` and the write cursor by `k` (R18, R19). -/
def State.advance (s : State) (n k : Nat) : State := { s with rd := s.rd + n, wr := s.wr + k }

/-- R63's condition: either cursor is at its bound. -/
def State.atEnd (s : State) : Bool := decide (s.wr = s.outCap) || decide (s.rd = s.inLen)

/-- END: `st <- DONE` and nothing else (R63). -/
def State.finish (s : State) : State := { s with st := .done }

/-- `short = (st = DONE) and (wr < out_cap)`, computed and not stored (R22). -/
def State.short (s : State) : Bool := decide (s.st = .done) && decide (s.wr < s.outCap)

/-- The level signal `done` a platform may derive (R98). -/
def State.doneSignal (s : State) : Bool := decide (s.st = .done)

/-- FETCH: read the control byte at `rd`, advance `rd` by 1, decode the class (R64). -/
def fetch (s : State) : Except Fault (Instr × State) :=
  match memRead s s.rd with
  | .ok c => .ok (decodeByte c, s.advance 1 0)
  | .error f => .error f

/-- An operation's result as the outcome of a step. -/
def outcomeOf : Except Fault State → Result
  | .ok t => .next t
  | .error f => .fault f

/-! ### START and RESET -/

/-- The registers a START that takes effect leaves (R74, and R86 for `ph`, `cnt` and `val`). No STATUS read has
returned DONE for the new job (R114). -/
def State.startJob (s : State) (l c : Nat) : State :=
  { s with
    st := .scan, inLen := l, outCap := c, rd := 0, wr := 0, trunc := false, clamp := false
    ph := .ctrl, cnt := 0, doneRead := false }

/-- OUT with every byte below `n` replaced by a free one of draw `d` (R110, I4). -/
def Mem.scramble (d n : Nat) (m : List Host.Cell) : List Host.Cell :=
  m.map fun cell => if cell.1 < n then (cell.1, Config.freeByte d cell.1) else cell

/-- The registers after RESET (R109). There is no current job, so no STATUS read has returned DONE for it. -/
def State.resetRegisters (s : State) : State :=
  { s with
    st := .idle, inLen := 0, outCap := 0, rd := 0, wr := 0, trunc := false, clamp := false
    ph := .ctrl, cnt := 0, val := 0#8, doneRead := false }

/-- OUT after a RESET in BUSY: the bytes below the abandoned job's `out_cap` are any value (R110, I4; log 6). How they
relate to those of another instance or another run is DESIGN CHOICE, log 25. -/
def State.abandonOutput (s : State) : State :=
  { s with
    output := { s.output with cells := Mem.scramble s.fresh s.outCap s.output.cells }
    fresh := s.fresh + 1 }

/-- RESET (R109, R110). -/
def State.resetBlock (s : State) : State :=
  match s.st with
  | .scan => s.abandonOutput.resetRegisters
  | .idle => s.resetRegisters
  | .done => s.resetRegisters

/-! ### The host's view -/

/-- The code of `st` in STATUS[1:0] (R26). -/
def stateCode : Fsm → BitVec 2
  | .idle => 0#2
  | .scan => 1#2
  | .done => 2#2

/-- STATUS: [1:0] STATE, [2] TRUNC, [3] CLAMP, [4] SHORT, [7:5] 0 (R26). -/
def State.statusWord (s : State) : BitVec 8 :=
  0#3 ++ BitVec.ofBool s.short ++ BitVec.ofBool s.clamp ++ BitVec.ofBool s.trunc ++ stateCode s.st

/-- READ(r): the register numbered `r`; any other number reads 0 (R25). In BUSY the counts and flags are those of the
instance's implementation, where I11 leaves them any value within R28 and R29: DESIGN CHOICE, log 23. -/
def State.readRegister (s : State) : Nat → Nat
  | 0 => s.statusWord.toNat
  | 1 => s.inLen
  | 2 => s.outCap
  | 3 => s.rd
  | 4 => s.wr
  | _ + 5 => 0

/-- Add an answer to the host's list. -/
def State.answer (s : State) (r : Reply) : State := { s with replies := r :: s.replies }

/-- READ(r) as the host sees it: the answer, and whether it tells the host that the job is over (R47, R76, R113). -/
def State.hostReads (s : State) (r : Nat) : State :=
  { s.answer (.register r (s.readRegister r)) with
    doneRead := s.doneRead || Reply.saysDone (.register r (s.readRegister r)) }

/-- An OUT byte at offset `j` read before it is settled: a free value (I3, R47, R113; log 6). How it
relates to the free values of another instance or another run is DESIGN CHOICE, log 25. -/
def State.drawByte (s : State) (j : Nat) : Byte × State :=
  (Config.freeByte s.fresh j, { s with fresh := s.fresh + 1 })

/-! ### Whose bytes a buffer's are -/

/-- No STATUS read has returned DONE for the current job: its output is not the host's yet (R47, R80, R113). -/
def State.resultPending (s : State) : Bool :=
  match s.st with
  | .idle => false
  | .scan => true
  | .done => !s.doneRead

/-- One of the `n` system addresses from `x` on is in `IN[0 .. in_len-1]` of a running job (R82, R84). -/
def State.ownsInputAt (s : State) (x n : Nat) : Bool :=
  decide (s.st = .scan) && rangesMeet s.input.base s.inLen x n

/-- One of the `n` system addresses from `x` on is in `OUT[0 .. out_cap-1]` of a job whose result is pending (R80,
R84, R113). -/
def State.ownsOutputAt (s : State) (x n : Nat) : Bool :=
  s.resultPending && rangesMeet s.output.base s.outCap x n

/-- Whose turn it is, and the state with that turn taken off the schedule (R99). -/
def State.nextTurn (s : State) : Turn × State :=
  match s.schedule with
  | [] => (.decoder, s)
  | t :: rest => (t, { s with schedule := rest })

end Sys2Proof.Machine
end

