-- ==== Sys2Proof/Machine/Operands.lean ====
section
/-! DEFINITION. The operands of a control unit: how many bytes it moves after clamping, and its value byte. The
declared lengths are `litLength` and `repLength` in Decode.lean. -/

namespace Sys2Proof.Machine

/-- `n = min(L, in_rem, out_rem)`: what a LIT of declared length `len` copies (R65). -/
def litCount (s : State) (len : Nat) : Nat := min len (min s.inRem s.outRem)

/-- `n = min(L, out_rem)`: what a REP of declared length `len` writes (R66). -/
def repCount (s : State) (len : Nat) : Nat := min len s.outRem

/-- The value byte of a REP is missing: `rd = in_len` after the control byte (R66). -/
def valueMissing (s : State) : Bool := decide (s.rd = s.inLen)

/-- The value byte of a REP, and the state with `rd` past it (R66). -/
def takeValue (s : State) : Except Fault (Byte × State) :=
  match memRead s s.rd with
  | .ok v => .ok (v, s.advance 1 0)
  | .error f => .error f

end Sys2Proof.Machine
end

