-- ==== Sys2Proof/Machine/Flags.lean ====
section
/-! DEFINITION. The two sticky flags (R20, R21): how the block records the conditions it recovers from (R96). -/

namespace Sys2Proof.Machine

/-- MalformedStream: set `trunc` when the condition holds; never clear it (R20). -/
def State.noteTrunc (s : State) (cond : Bool) : State := { s with trunc := s.trunc || cond }

/-- CapacityExceeded: set `clamp` when the condition holds; never clear it (R21). -/
def State.noteClamp (s : State) (cond : Bool) : State := { s with clamp := s.clamp || cond }

/-- The flags of a LIT with declared length `len`: `trunc` if `L > in_rem`, `clamp` if `L > out_rem` (R65). -/
def State.noteLit (s : State) (len : Nat) : State :=
  (s.noteTrunc (decide (s.inRem < len))).noteClamp (decide (s.outRem < len))

/-- The flag of a REP whose value byte is present: `clamp` if `L > out_rem` (R66). -/
def State.noteRep (s : State) (len : Nat) : State := s.noteClamp (decide (s.outRem < len))

end Sys2Proof.Machine
end

