-- ==== Sys2Proof/Machine/Units.lean ====
section
/-! DEFINITION. The meanings of the three control units: the bodies of R65 to R67, which run inside the step of R64
after `rd <- rd + 1`. `st` stays SCAN. -/

namespace Sys2Proof.Machine

/-- NOP: no read, no write, no flag (R67). -/
def execNop (s : State) : Result := .next s

/-- LIT: copy `n = min(L, in_rem, out_rem)` bytes from IN to OUT and advance both cursors by `n` (R65). -/
def execLit (m : RunField) (s : State) : Result :=
  let n := litCount s (litLength m)
  match copyRun n s.rd s.wr (s.noteLit (litLength m)) with
  | .ok t => .next (t.advance n n)
  | .error f => .fault f

/-- REP once its value byte `v` is read: write it `n = min(L, out_rem)` times and advance `wr` by `n` (R66). -/
def repEmit (len : Nat) (v : Byte) (s : State) : Result :=
  let n := repCount s len
  match fillRun n s.wr v (s.noteRep len) with
  | .ok t => .next (t.advance 0 n)
  | .error f => .fault f

/-- REP: with no value byte only `trunc` is set; otherwise the value byte is replicated (R66). A term with `m = 0`
is no control unit (R54): log 9. -/
def execRep (m : RunField) (s : State) : Result :=
  if m = 0#7 then .refused .illFormedUnit
  else if valueMissing s then .next (s.noteTrunc true)
  else
    match takeValue s with
    | .ok (v, t) => repEmit (repLength m) v t
    | .error f => .fault f

end Sys2Proof.Machine
end

