-- ==== Sys2Proof/Machine/Dispatch.lean ====
section
/-! DEFINITION. One arm per control unit. -/

namespace Sys2Proof.Machine

def exec (i : Instr) (s : State) : Host.Outcome State Fault Refusal :=
  match i with
  | .nop => Sys2Proof.Machine.execNop s
  | .lit m => Sys2Proof.Machine.execLit m s
  | .rep m => Sys2Proof.Machine.execRep m s

end Sys2Proof.Machine
end

