-- ==== Sys2Proof/Machine/Engine.lean ====
section
/-! DEFINITION. The byte-level engine, the other admitted implementation (R85 to R91). -/

namespace Sys2Proof.Machine

/-- After one byte of a run has moved: one fewer to go, and CTRL when that was the last (R88, R90). -/
def State.countDown (s : State) : State :=
  { s with cnt := s.cnt - 1, ph := if s.cnt - 1 = 0 then .ctrl else s.ph }

/-- What the CTRL step does with the unit it fetched (R87). -/
def engineDemux (i : Instr) (s : State) : State :=
  match i with
  | .nop => { s with ph := .ctrl }
  | .lit m =>
    let n := litCount s (litLength m)
    { s.noteLit (litLength m) with cnt := n, ph := if n = 0 then .ctrl else .litc }
  | .rep m => { s with cnt := repLength m, ph := .rfetch }

/-- CTRL step: END, or fetch and demultiplex (R87). -/
def engineCtrl (s : State) : Result :=
  if s.atEnd then .next s.finish
  else
    match fetch s with
    | .ok (i, t) => .next (engineDemux i t)
    | .error f => .fault f

/-- LITC step: copy one byte (R88). -/
def engineLitc (s : State) : Result :=
  if s.cnt = 0 then .fault .engineStuck
  else
    match memRead s s.rd with
    | .error f => .fault f
    | .ok b =>
      match memWrite s s.wr b with
      | .error f => .fault f
      | .ok t => .next (t.advance 1 1).countDown

/-- RFETCH step: fetch the value byte, or find it missing (R89). -/
def engineRfetch (s : State) : Result :=
  if valueMissing s then .next { s.noteTrunc true with cnt := 0, ph := .ctrl }
  else
    match takeValue s with
    | .error f => .fault f
    | .ok (v, t) => .next { t.noteRep t.cnt with val := v, cnt := repCount t t.cnt, ph := .remit }

/-- REMIT step: emit the value byte once (R90). -/
def engineRemit (s : State) : Result :=
  if s.cnt = 0 then .fault .engineStuck
  else
    match memWrite s s.wr s.val with
    | .error f => .fault f
    | .ok t => .next (t.advance 0 1).countDown

/-- The engine's step in its phase (R87 to R90). -/
def engineStep (s : State) : Result :=
  match s.ph with
  | .ctrl => engineCtrl s
  | .litc => engineLitc s
  | .rfetch => engineRfetch s
  | .remit => engineRemit s

end Sys2Proof.Machine
end

