-- ==== Sys2Proof/Machine/Decoder.lean ====
section
/-! DEFINITION. The decoder's turn. -/

namespace Sys2Proof.Machine

/-- The unit-level decoder step: END, or fetch a control unit and run it (R63, R64). -/
def unitStep (s : State) : Result :=
  if s.atEnd then .next s.finish
  else
    match fetch s with
    | .ok (i, t) => exec i t
    | .error f => .fault f

/-- The decoder's turn. In IDLE and DONE it has no step, and the machine stays as it is (R68; DESIGN CHOICE, log 5). -/
def decoderTurn (s : State) : Result :=
  match s.st with
  | .idle => .next s
  | .done => .next s
  | .scan =>
    match s.impl with
    | .unitLevel => unitStep s
    | .byteLevel => engineStep s

end Sys2Proof.Machine
end

