-- ==== Sys2Proof/Machine/HostTurn.lean ====
section
/-! DEFINITION. The host's actions (41_host_interface.md, R109). A host that breaks a duty of section 2 there makes
a run the model refuses. -/

namespace Sys2Proof.Machine

/-- The launch conditions of R112: what a START that would take effect is refused for, if anything. -/
def launchRefusal (s : State) (l c : Nat) : Option Refusal :=
  if s.input.size < l then some .inputLongerThanBuffer
  else if s.output.size < c then some .outputLongerThanBuffer
  else if s.input.overlaps l s.output c then some .buffersOverlap
  else if 2 ^ Config.inLenW ≤ l ∨ 2 ^ Config.outCapW ≤ c then some .operandTooWide
  else none

/-- START(l, c): ignored in BUSY (R75), otherwise it begins a job (R74). -/
def hostStart (s : State) (l c : Nat) : Result :=
  match s.st with
  | .scan => .next s
  | .idle | .done =>
    match launchRefusal s l c with
    | some r => .refused r
    | none => .next (s.startJob l c)

/-- The host supplies both buffers, outside a job (R33, R34, R112). -/
def hostPlace (s : State) (inBase : Nat) (inBytes : List Byte) (outBase : Nat) (outBytes : List Byte) : Result :=
  if s.resultPending then .refused .buffersMovedWhileBusy
  else .next { s with input := Buffer.ofBytes inBase inBytes, output := Buffer.ofBytes outBase outBytes }

/-- The host writes a byte of IN (R82). The job's bytes are refused by their system addresses, so that a write of IN
cannot reach the job's output where the buffers overlap (R80, log 10). -/
def hostWriteIn (s : State) (i : Nat) (b : Byte) : Result :=
  if s.ownsInputAt (s.input.base + i) 1 then .refused .hostTouchesInputWhileBusy
  else if s.ownsOutputAt (s.input.base + i) 1 then .refused .hostWritesOutputWhileBusy
  else
    match Mem.read s.input.cells i with
    | some _ => .next { s with input := { s.input with cells := Mem.write s.input.cells i b } }
    | none => .refused .hostOutsideBuffer

/-- The host reads a byte of IN (R84). A byte whose system address is in the output of a job with a pending result
reads as any value, as a read of OUT does (I3, log 10). -/
def hostReadIn (s : State) (i : Nat) : Result :=
  if s.ownsInputAt (s.input.base + i) 1 then .refused .hostTouchesInputWhileBusy
  else
    match Mem.read s.input.cells i with
    | none => .refused .hostOutsideBuffer
    | some b =>
      if s.ownsOutputAt (s.input.base + i) 1 then
        let (v, t) := s.drawByte (s.input.base + i - s.output.base)
        .next (t.answer (.inByte i v))
      else .next (s.answer (.inByte i b))

/-- The host writes a byte of OUT (R80). The job's bytes are refused by their system addresses, so that a write of OUT
cannot reach the job's input where the buffers overlap (R82, log 10). -/
def hostWriteOut (s : State) (j : Nat) (b : Byte) : Result :=
  if s.ownsOutputAt (s.output.base + j) 1 then .refused .hostWritesOutputWhileBusy
  else if s.ownsInputAt (s.output.base + j) 1 then .refused .hostTouchesInputWhileBusy
  else
    match Mem.read s.output.cells j with
    | some _ => .next { s with output := { s.output with cells := Mem.write s.output.cells j b } }
    | none => .refused .hostOutsideBuffer

/-- The host reads a byte of OUT: in BUSY any value (R47 item 4, I3), and so in DONE until a STATUS read has returned
DONE for the job (R47 item 3, R113; DESIGN CHOICE, log 24); otherwise the byte that stands there. -/
def hostReadOut (s : State) (j : Nat) : Result :=
  match Mem.read s.output.cells j with
  | none => .refused .hostOutsideBuffer
  | some b =>
    if s.resultPending then
      let (v, t) := s.drawByte j
      .next (t.answer (.outByte j v))
    else .next (s.answer (.outByte j b))

/-- The host takes the job's result, `OUT[0 .. OUT_COUNT-1]` with the counts and flags (R77), once a STATUS read has
returned DONE for the job (R84, R113). -/
def hostCollect (s : State) : Result :=
  match s.st with
  | .idle | .scan => .refused .resultBeforeDone
  | .done =>
    if s.resultPending then .refused .resultBeforeDone
    else
      match Mem.readRun s.output.cells s.wr 0 with
      | some bytes => .next (s.answer (.result bytes s.rd s.trunc s.clamp s.short))
      | none => .refused .hostOutsideBuffer

/-- One host action. -/
def hostTurn (a : HostAction) (s : State) : Result :=
  match a with
  | .reset => .next s.resetBlock
  | .start l c => hostStart s l c
  | .read r => .next (s.hostReads r)
  | .place inBase inBytes outBase outBytes => hostPlace s inBase inBytes outBase outBytes
  | .writeIn i b => hostWriteIn s i b
  | .readIn i => hostReadIn s i
  | .writeOut j b => hostWriteOut s j b
  | .readOut j => hostReadOut s j
  | .collect => hostCollect s

end Sys2Proof.Machine
end

