-- ==== Sys2Proof/Machine/Step.lean ====
section
/-! DEFINITION. One step of the machine: the next turn of the schedule, by whichever agent has it (R10, R11, R99). -/

namespace Sys2Proof.Machine

/-- One step: a decoder step or a host action, each atomic (R10). -/
def step (s : State) : Host.Outcome State Fault Refusal :=
  match s.nextTurn with
  | (.decoder, t) => decoderTurn t
  | (.host a, t) => hostTurn a t

/-- `s` with the unit of a table word in IN at `rd`, in a unit-level job that has the unit's input and room for 128
output bytes left, and the next turn the decoder's: the very next step fetches and runs that unit (log 11). -/
def State.withFetchWord (s : State) (nbits w : Nat) : State :=
  { s with
    st := .scan
    inLen := s.rd + 129
    outCap := s.wr + 128
    input := { s.input with cells := Mem.load s.input.cells s.rd (wordBytes nbits w) }
    output := { s.output with cells := Mem.ensure s.output.cells s.wr 128 }
    impl := .unitLevel
    ph := .ctrl
    cnt := 0
    schedule := []
    doneRead := false }

end Sys2Proof.Machine
end

