-- ==== Sys2Proof/Machine/Call.lean ====
section
/-! DEFINITION. The call of the source's contract (41_host_interface.md): `decode(input, input_length,
output_capacity)` as a function over byte lists, and the host's sequence that makes the same call of the block. No
step of the machine uses the function; the statements compare the two. -/

namespace Sys2Proof.Machine

/-- What a call gives back: the bytes produced, how many input bytes were read, and the two conditions met. -/
structure CallResult where
  bytes    : List Byte
  consumed : Nat
  trunc    : Bool
  clamp    : Bool
deriving DecidableEq, Repr

/-- The end of a call: nothing more is read or written (R63). -/
def CallResult.nothing : CallResult := { bytes := [], consumed := 0, trunc := false, clamp := false }

/-- The result of a unit followed by the result of the rest of the call. -/
def CallResult.andThen (unit rest : CallResult) : CallResult :=
  { bytes := unit.bytes ++ rest.bytes
    consumed := unit.consumed + rest.consumed
    trunc := unit.trunc || rest.trunc
    clamp := unit.clamp || rest.clamp }

/-- At most `fuel` units of a call on the bytes `input`, with room for `cap` bytes (R63 to R67). -/
def callUnits : Nat → List Byte → Nat → CallResult
  | 0, _, _ => .nothing
  | fuel + 1, input, cap =>
    if cap = 0 then .nothing
    else
      match input with
      | [] => .nothing
      | c :: rest =>
        match decodeByte c with
        | .nop =>
          CallResult.andThen { bytes := [], consumed := 1, trunc := false, clamp := false }
            (callUnits fuel rest cap)
        | .lit m =>
          let data := (rest.take (litLength m)).take cap
          CallResult.andThen
            { bytes := data, consumed := 1 + data.length
              trunc := decide (rest.length < litLength m), clamp := decide (cap < litLength m) }
            (callUnits fuel (rest.drop data.length) (cap - data.length))
        | .rep m =>
          match rest with
          | [] => { bytes := [], consumed := 1, trunc := true, clamp := false }
          | v :: rest' =>
            let n := min (repLength m) cap
            CallResult.andThen
              { bytes := List.replicate n v, consumed := 2
                trunc := false, clamp := decide (cap < repLength m) }
              (callUnits fuel rest' (cap - n))

/-- `decode(input, input_length, output_capacity)`: only the first `input_length` bytes take part (R16), and every
unit reads at least one of them (R69). -/
def decodeCall (input : List Byte) (inputLength outputCapacity : Nat) : CallResult :=
  callUnits inputLength (input.take inputLength) outputCapacity

/-- The call the host makes of the block (R79): supply the buffers, START, wait through the turns `wait`, read STATUS,
and take the result (R84). The reads of STATUS that return BUSY are turns of `wait`. -/
def callTurns (inBase : Nat) (inBytes : List Byte) (outBase : Nat) (outBytes : List Byte) (l c : Nat)
    (wait : List Turn) : List Turn :=
  [.host (.place inBase inBytes outBase outBytes), .host (.start l c)] ++ wait ++ [.host (.read 0), .host .collect]

end Sys2Proof.Machine
end

