-- ==== Sys2Proof/Machine/System.lean ====
section
/-! DEFINITION. Several instances of the block side by side (R51, R106): each has a state of its own. -/

namespace Sys2Proof.Machine

/-- The instances of a system, by number. -/
structure System where
  instances : List State
deriving DecidableEq, Repr

/-- The operands of the START that an instance's next turn makes, where that START takes effect (R74, R75). -/
def State.launching (s : State) : Option (Nat × Nat) :=
  match s.st, s.nextTurn.1 with
  | .idle, .host (.start l c) => some (l, c)
  | .done, .host (.start l c) => some (l, c)
  | _, _ => none

/-- A job of `s` with operands `l` and `c` would share a buffer with the running job of `o` that one of them
writes: an OUT range shared, or one's OUT range over the other's IN range (R81). -/
def State.sharesWith (s : State) (l c : Nat) (o : State) : Bool :=
  decide (o.st = .scan) &&
    (s.output.overlaps c o.output o.outCap || s.output.overlaps c o.input o.inLen
      || o.output.overlaps o.outCap s.input l)

/-- Some other instance than number `k` shares a buffer with the job that number `k` is about to start (R81). -/
def System.launchConflict (sys : System) (k : Nat) (s : State) : Bool :=
  match s.launching with
  | none => false
  | some (l, c) => (sys.instances.eraseIdx k).any fun o => s.sharesWith l c o

/-- The system addresses that an instance's next turn touches in its own buffers, where that turn is a host access:
the first and how many. -/
def State.touching (s : State) : Nat × Nat :=
  match s.nextTurn.1 with
  | .host (.writeIn i _) => (s.input.base + i, 1)
  | .host (.readIn i) => (s.input.base + i, 1)
  | .host (.writeOut j _) => (s.output.base + j, 1)
  | .host (.readOut j) => (s.output.base + j, 1)
  | .host .collect => (s.output.base, s.wr)
  | .decoder => (0, 0)
  | .host .reset => (0, 0)
  | .host (.start _ _) => (0, 0)
  | .host (.read _) => (0, 0)
  | .host (.place _ _ _ _) => (0, 0)

/-- Some other instance than number `k` has a job that owns bytes which the host touches in the next turn of `k` (R80,
R82, R84). -/
def System.accessConflict (sys : System) (k : Nat) (s : State) : Bool :=
  (sys.instances.eraseIdx k).any fun o =>
    o.ownsInputAt s.touching.1 s.touching.2 || o.ownsOutputAt s.touching.1 s.touching.2

/-- Instance number `k` takes its step; a launch onto buffers another running job uses, and a host access to bytes
that another instance's job owns, are refused (R80 to R82). -/
def System.step (sys : System) (k : Nat) : Host.Outcome System Fault Refusal :=
  match sys.instances[k]? with
  | none => .refused .noSuchInstance
  | some s =>
    if sys.launchConflict k s || sys.accessConflict k s then .refused .buffersShared
    else
      match Sys2Proof.Machine.step s with
      | .next t => .next { instances := sys.instances.set k t }
      | .fault f => .fault f
      | .refused r => .refused r

end Sys2Proof.Machine
end

