-- ==== Sys2Proof/Safety.lean ====
section
/-! DEFINITION. What counts as a sound state, in the terms the statements use. -/

namespace Sys2Proof.Machine

/-- The byte-level engine's registers agree with the job (R86 to R90): nothing left to move at a unit boundary,
and in the other phases no more than the bounds allow. -/
def EngineAgrees (s : State) : Prop :=
  match s.ph with
  | .ctrl => s.cnt = 0
  | .litc => 1 ≤ s.cnt ∧ s.cnt ≤ 128 ∧ s.rd + s.cnt ≤ s.inLen ∧ s.wr + s.cnt ≤ s.outCap
  | .rfetch => 2 ≤ s.cnt ∧ s.cnt ≤ 128 ∧ s.wr < s.outCap
  | .remit => 1 ≤ s.cnt ∧ s.cnt ≤ 128 ∧ s.wr + s.cnt ≤ s.outCap

/-- The invariant of the machine: what holds at reset and after every step. -/
structure Inv (s : State) : Prop where
  /-- The IN buffer holds the bytes `0 .. size_in-1` and no others (R33). -/
  inputFull : Mem.full s.input.cells
  /-- The OUT buffer holds the bytes `0 .. size_out-1` and no others (R34). -/
  outputFull : Mem.full s.output.cells
  /-- `rd <= in_len` (R28). -/
  rdBound : s.rd ≤ s.inLen
  /-- `wr <= out_cap` (R28). -/
  wrBound : s.wr ≤ s.outCap
  /-- A running job's input lies in the IN buffer (R83). -/
  inputFits : s.st = .scan → s.inLen ≤ s.input.size
  /-- A running job's output lies in the OUT buffer (R83). -/
  outputFits : s.st = .scan → s.outCap ≤ s.output.size
  /-- A running job's buffers do not overlap (R81). -/
  buffersApart : s.st = .scan → s.input.overlaps s.inLen s.output s.outCap = false
  /-- The byte-level engine's registers (R86 to R90). -/
  engine : EngineAgrees s
  /-- The engine is inside a unit only while a byte-level job runs (R24, R86). -/
  boundary : s.ph ≠ .ctrl → s.st = .scan ∧ s.impl = .byteLevel
  /-- In IDLE every job register is 0 (R109). -/
  idleZero : s.st = .idle →
    s.inLen = 0 ∧ s.outCap = 0 ∧ s.rd = 0 ∧ s.wr = 0 ∧ s.trunc = false ∧ s.clamp = false
  /-- DONE is reached when either bound is exhausted (R15, R63). -/
  doneAtBound : s.st = .done → s.wr = s.outCap ∨ s.rd = s.inLen
  /-- A STATUS read can have returned DONE only for a job that is over (R114). -/
  doneReadInDone : s.doneRead = true → s.st = .done

/-- Every length register and cursor fits its width (R6, R28). -/
structure InRange (s : State) : Prop where
  inLen  : s.inLen < 2 ^ Config.inLenW
  outCap : s.outCap < 2 ^ Config.outCapW
  rd     : s.rd < 2 ^ Config.inLenW
  wr     : s.wr < 2 ^ Config.outCapW

/-- The buffers hold every byte of the job's input and output (R83): what the host must provide for a control unit
to run. -/
structure Covers (s : State) : Prop where
  input  : ∀ i, i < s.inLen → (Mem.read s.input.cells i).isSome
  output : ∀ j, j < s.outCap → (Mem.read s.output.cells j).isSome

/-- The state a START that took effect leaves (R74): the job has not taken a step. -/
structure JobStarted (s : State) : Prop where
  inv      : Inv s
  st       : s.st = .scan
  rd       : s.rd = 0
  wr       : s.wr = 0
  trunc    : s.trunc = false
  clamp    : s.clamp = false
  ph       : s.ph = .ctrl

/-- `k` steps of the machine, stopping at the first fault or refusal. -/
def runSteps : Nat → State → Host.Outcome State Fault Refusal
  | 0, s => .next s
  | k + 1, s =>
    match step s with
    | .next t => runSteps k t
    | .fault f => .fault f
    | .refused r => .refused r

/-- The job that runs in `s` reaches DONE at step `k`, in the state `t`. Until then it was running, so no RESET came
between and every START was ignored (R73, R75). -/
structure JobDoneAt (k : Nat) (s t : State) : Prop where
  run    : runSteps k s = .next t
  done   : t.st = .done
  before : ∀ j u, j < k → runSteps j s = .next u → u.st = .scan

/-- `s` and `t` are at the same point of the same job: every register, the job's input and the job's range of OUT
agree (R13, R73, R86). -/
structure SameJob (s t : State) : Prop where
  st     : s.st = t.st
  inLen  : s.inLen = t.inLen
  outCap : s.outCap = t.outCap
  rd     : s.rd = t.rd
  wr     : s.wr = t.wr
  trunc  : s.trunc = t.trunc
  clamp  : s.clamp = t.clamp
  ph     : s.ph = t.ph
  cnt    : s.cnt = t.cnt
  val    : s.val = t.val
  impl   : s.impl = t.impl
  input  : ∀ a, a < s.inLen → Mem.read s.input.cells a = Mem.read t.input.cells a
  output : ∀ a, a < s.outCap → Mem.read s.output.cells a = Mem.read t.output.cells a

end Sys2Proof.Machine
end

