-- ==== Sys2Proof/Certificates/Slice0/Obligations.lean ====
section
/-! DEFINITION. The statements for the provers. Each docstring names the rule of spec/ it formalises; where a clause
rests on a choice of the model, it names the log entry. -/

open Sys2Proof Sys2Proof.Machine

/-! ### Encoding -/

/-- The source's spot checks of R60 and the corner bytes of 95_test_vectors.md section 2.5. -/
def Obligations.SpotCheckedControlBytes : Prop :=
  (decodeByte 0x00#8 = .lit 0#7 ∧ litLength 0#7 = 1) ∧ (decodeByte 0x01#8 = .lit 1#7 ∧ litLength 1#7 = 2) ∧
  (decodeByte 0x02#8 = .lit 2#7 ∧ litLength 2#7 = 3) ∧ (decodeByte 0x05#8 = .lit 5#7 ∧ litLength 5#7 = 6) ∧
  (decodeByte 0x7F#8 = .lit 127#7 ∧ litLength 127#7 = 128) ∧ decodeByte 0x80#8 = .nop ∧
  (decodeByte 0x81#8 = .rep 1#7 ∧ repLength 1#7 = 128) ∧ (decodeByte 0xC0#8 = .rep 64#7 ∧ repLength 64#7 = 65) ∧
  (decodeByte 0xF0#8 = .rep 112#7 ∧ repLength 112#7 = 17) ∧
  (decodeByte 0xFE#8 = .rep 126#7 ∧ repLength 126#7 = 3) ∧ (decodeByte 0xFF#8 = .rep 127#7 ∧ repLength 127#7 = 2)

/-- R60: the class and the declared run length of every control byte. -/
def Obligations.EveryControlByteHasItsClassAndLength : Prop :=
  ∀ c : Byte,
    (c.toNat ≤ 0x7F → ∃ m, decodeByte c = .lit m ∧ litLength m = c.toNat + 1) ∧
    (c.toNat = 0x80 → decodeByte c = .nop) ∧
    (0x81 ≤ c.toNat → ∃ m, decodeByte c = .rep m ∧ repLength m = 257 - c.toNat)

/-- R54: the three forms of a repeat run's declared length agree, and it is 2 to 128. -/
def Obligations.RepeatLengthFormsAgree : Prop :=
  ∀ m : RunField, m ≠ 0#7 →
    repLength m = 257 - (encodeByte (.rep m)).toNat ∧
    (repLength m : Int) = 1 - (encodeByte (.rep m)).toInt ∧
    repLength m = 129 - m.toNat ∧ 2 ≤ repLength m ∧ repLength m ≤ 128

/-- The opcode table: for every control byte, the first row whose match and mask fit is the decoded class. -/
def Obligations.OpcodeTablePicksTheDecodedClass : Prop :=
  ∀ c : Byte, rowOf c = some (decodeByte c).mnemonic

/-- Decode and encode agree: every control unit is decoded from its control byte, whatever follows it, and every
control byte is the encoding of what it decodes to. -/
def Obligations.DecodeAndEncodeAgree : Prop :=
  (∀ (i : Instr) (rest : List Byte), i.wellFormed = true → decode (encode i ++ rest) = .ok (i, rest)) ∧
  ∀ (c : Byte) (rest : List Byte), ∃ i, decode (c :: rest) = .ok (i, rest) ∧ i.wellFormed = true ∧ encode i = [c]

/-- R61: disassembling what the assembler makes of control units gives the units back, with every operand. -/
def Obligations.DisassembleInvertsAssemble : Prop :=
  ∀ items : List Item, (∀ it ∈ items, it.isUnit = true ∧ it.wellFormed = true) →
    ∃ bytes, assemble items = some bytes ∧ disassemble bytes = items

/-- R61: assembling what the disassembler makes of any bytes gives the bytes back. -/
def Obligations.AssembleInvertsDisassemble : Prop :=
  ∀ bytes : List Byte, assemble (disassemble bytes) = some bytes

/-- R61: what the assembler makes of each line, and what it refuses. -/
def Obligations.AssemblerLinesAndRefusals : Prop :=
  (∀ data : List Byte, (1 ≤ data.length ∧ data.length ≤ 128 →
      ∃ c : Byte, c.toNat = data.length - 1 ∧ assembleItem (.lit data) = some (c :: data)) ∧
    (data.length = 0 ∨ 128 < data.length → assembleItem (.lit data) = none)) ∧
  (∀ (len : Nat) (v : Byte), (2 ≤ len ∧ len ≤ 128 →
      ∃ c : Byte, c.toNat = 257 - len ∧ assembleItem (.rep len v) = some [c, v]) ∧
    (len < 2 ∨ 128 < len → assembleItem (.rep len v) = none)) ∧
  assembleItem .nop = some [0x80#8] ∧ ∀ bytes : List Byte, assembleItem (.raw bytes) = some bytes

/-- R58: the length of a unit follows from its control byte alone. -/
def Obligations.UnitLengthFromControlByte : Prop :=
  ∀ (c : Byte) (rest more : List Byte) (it : Item), takeUnit (c :: rest) = some (it, more) →
    (c :: rest).length = unitLength (decodeByte c) + more.length ∧
    (decodeByte c = .nop → unitLength (decodeByte c) = 1) ∧
    (∀ m, decodeByte c = .lit m → unitLength (decodeByte c) = 2 + m.toNat) ∧
    (∀ m, decodeByte c = .rep m → unitLength (decodeByte c) = 2)

/-! ### The control units -/

/-- R67: a NOP's body reads nothing, writes nothing and sets no flag. -/
def Obligations.NopHasNoFurtherEffect : Prop := ∀ s : State, exec .nop s = .next s

/-- R65: a LIT completes; it copies `n = min(L, in_rem, out_rem)` bytes, advances both cursors by `n`, sets the two
flags by the declared length, and changes nothing else. -/
def Obligations.LitCopiesTheClampedRun : Prop :=
  ∀ (m : RunField) (s : State), Covers s →
    let len := m.toNat + 1
    let n := min len (min (s.inLen - s.rd) (s.outCap - s.wr))
    ∃ t, exec (.lit m) s = .next t ∧
      t = { s with
        trunc := s.trunc || decide (s.inLen - s.rd < len)
        clamp := s.clamp || decide (s.outCap - s.wr < len)
        rd := s.rd + n, wr := s.wr + n, output := t.output } ∧
      t.output.base = s.output.base ∧
      (∀ k, k < n → Mem.read t.output.cells (s.wr + k) = Mem.read s.input.cells (s.rd + k)) ∧
      ∀ a, a < s.wr ∨ s.wr + n ≤ a → Mem.read t.output.cells a = Mem.read s.output.cells a

/-- R66: a REP completes. With no value byte it sets `trunc` and nothing else; with one it writes the byte
`n = min(L, out_rem)` times, advances `rd` by 1 and `wr` by `n`, sets `clamp` by the declared length, and changes
nothing else. -/
def Obligations.RepReplicatesTheValueByte : Prop :=
  ∀ (m : RunField) (s : State), m ≠ 0#7 → Covers s →
    (s.rd = s.inLen → exec (.rep m) s = .next { s with trunc := true }) ∧
    (s.rd < s.inLen →
      let len := 129 - m.toNat
      let n := min len (s.outCap - s.wr)
      ∃ v t, Mem.read s.input.cells s.rd = some v ∧ exec (.rep m) s = .next t ∧
        t = { s with
          clamp := s.clamp || decide (s.outCap - s.wr < len)
          rd := s.rd + 1, wr := s.wr + n, output := t.output } ∧
        t.output.base = s.output.base ∧
        (∀ k, k < n → Mem.read t.output.cells (s.wr + k) = some v) ∧
        ∀ a, a < s.wr ∨ s.wr + n ≤ a → Mem.read t.output.cells a = Mem.read s.output.cells a)

/-- The term REP with `m = 0` is no control unit (R54); the model refuses it by name (log 9). -/
def Obligations.RepWithZeroFieldIsRefused : Prop := ∀ s : State, exec (.rep 0#7) s = .refused .illFormedUnit

/-- R64: a decoder step of the unit-level machine fetches the control byte at `rd`, advances `rd` by 1 and runs the
body that the byte's class selects, in one step. `u` is the state with the turn taken off the schedule (log 1). -/
def Obligations.StepRunsTheDecodedUnit : Prop :=
  ∀ (s u : State) (c : Byte), s.nextTurn = (.decoder, u) → u.st = .scan → u.impl = .unitLevel →
    u.wr ≠ u.outCap → u.rd ≠ u.inLen → Mem.read u.input.cells u.rd = some c →
    step s = exec (decodeByte c) { u with rd := u.rd + 1 }

/-- R63: at either bound the decoder's step is END, which writes `st` and nothing else; so in both implementations,
in the byte-level engine at a unit boundary (R87). -/
def Obligations.EndStepOnlyMovesToDone : Prop :=
  ∀ s u : State, s.nextTurn = (.decoder, u) → u.st = .scan → (u.impl = .unitLevel ∨ u.ph = .ctrl) →
    (u.wr = u.outCap ∨ u.rd = u.inLen) → step s = .next { u with st := .done }

/-- R68: in IDLE and DONE the decoder has no step; the model's step then leaves everything as it is (log 5). -/
def Obligations.DecoderIsQuietOutsideScan : Prop :=
  ∀ s u : State, s.nextTurn = (.decoder, u) → u.st ≠ .scan → step s = .next u

/-- R18, R19, R69: how far a unit-level step moves the two cursors, by class, and that it moves `wr` by the bytes it
stores; it always reads at least one byte. -/
def Obligations.CursorsAdvanceByTheBytesMoved : Prop :=
  ∀ (s t : State) (c : Byte), s.st = .scan → s.impl = .unitLevel → s.wr ≠ s.outCap → s.rd ≠ s.inLen →
    Mem.read s.input.cells s.rd = some c → decoderTurn s = .next t →
    t.st = .scan ∧ s.rd < t.rd ∧
    (decodeByte c = .nop → t.rd = s.rd + 1 ∧ t.wr = s.wr) ∧
    (∀ m, decodeByte c = .lit m →
      let n := litCount (s.advance 1 0) (litLength m)
      t.rd = s.rd + 1 + n ∧ t.wr = s.wr + n ∧
      ∀ k, k < n → Mem.read t.output.cells (s.wr + k) = Mem.read s.input.cells (s.rd + 1 + k)) ∧
    (∀ m, decodeByte c = .rep m →
      (s.rd + 1 = s.inLen → t.rd = s.rd + 1 ∧ t.wr = s.wr) ∧
      (s.rd + 1 ≠ s.inLen →
        let n := repCount s (repLength m)
        t.rd = s.rd + 2 ∧ t.wr = s.wr + n ∧
        ∀ k, k < n → Mem.read t.output.cells (s.wr + k) = Mem.read s.input.cells (s.rd + 1)))

/-- R72: a unit that moves fewer bytes than it declares leaves a cursor at its bound, and the next decoder step is
END. -/
def Obligations.CutShortUnitIsTheLast : Prop :=
  ∀ (i : Instr) (s t : State), s.st = .scan → s.impl = .unitLevel → s.rd ≤ s.inLen → s.wr ≤ s.outCap →
    exec i s = .next t →
    ((∃ m, i = .lit m ∧ t.wr - s.wr < litLength m) ∨ (∃ m, i = .rep m ∧ t.wr - s.wr < repLength m)) →
    (t.rd = t.inLen ∨ t.wr = t.outCap) ∧ decoderTurn t = .next { t with st := .done }

/-! ### The byte-level engine -/

/-- R87: the engine's CTRL step away from the bounds. -/
def Obligations.EngineCtrlDemultiplexes : Prop :=
  ∀ (s : State) (c : Byte), s.st = .scan → s.impl = .byteLevel → s.ph = .ctrl → s.wr ≠ s.outCap → s.rd ≠ s.inLen →
    Mem.read s.input.cells s.rd = some c →
    (decodeByte c = .nop → decoderTurn s = .next { s with rd := s.rd + 1 }) ∧
    (∀ m, decodeByte c = .lit m →
      let len := m.toNat + 1
      let n := min len (min (s.inLen - (s.rd + 1)) (s.outCap - s.wr))
      decoderTurn s = .next { s with
        rd := s.rd + 1
        trunc := s.trunc || decide (s.inLen - (s.rd + 1) < len)
        clamp := s.clamp || decide (s.outCap - s.wr < len)
        cnt := n, ph := if n = 0 then .ctrl else .litc }) ∧
    (∀ m, decodeByte c = .rep m →
      decoderTurn s = .next { s with rd := s.rd + 1, cnt := 257 - c.toNat, ph := .rfetch })

/-- R88: the engine's LITC step copies one byte. -/
def Obligations.EngineLitcCopiesOneByte : Prop :=
  ∀ (s : State) (b : Byte), s.st = .scan → s.impl = .byteLevel → s.ph = .litc → 1 ≤ s.cnt →
    Mem.read s.input.cells s.rd = some b → (Mem.read s.output.cells s.wr).isSome →
    ∃ t, decoderTurn s = .next t ∧
      t = { s with
        rd := s.rd + 1, wr := s.wr + 1, cnt := s.cnt - 1
        ph := if s.cnt - 1 = 0 then .ctrl else .litc, output := t.output } ∧
      t.output.base = s.output.base ∧ Mem.read t.output.cells s.wr = some b ∧
      ∀ a, a ≠ s.wr → Mem.read t.output.cells a = Mem.read s.output.cells a

/-- R89: the engine's RFETCH step takes the value byte, or finds it missing. -/
def Obligations.EngineRfetchTakesTheValue : Prop :=
  ∀ s : State, s.st = .scan → s.impl = .byteLevel → s.ph = .rfetch →
    (s.rd = s.inLen → decoderTurn s = .next { s with trunc := true, cnt := 0, ph := .ctrl }) ∧
    (∀ v, s.rd ≠ s.inLen → Mem.read s.input.cells s.rd = some v →
      decoderTurn s = .next { s with
        val := v, rd := s.rd + 1
        clamp := s.clamp || decide (s.outCap - s.wr < s.cnt)
        cnt := min s.cnt (s.outCap - s.wr), ph := .remit })

/-- R90: the engine's REMIT step emits the value byte once. -/
def Obligations.EngineRemitEmitsTheValue : Prop :=
  ∀ s : State, s.st = .scan → s.impl = .byteLevel → s.ph = .remit → 1 ≤ s.cnt →
    (Mem.read s.output.cells s.wr).isSome →
    ∃ t, decoderTurn s = .next t ∧
      t = { s with
        wr := s.wr + 1, cnt := s.cnt - 1
        ph := if s.cnt - 1 = 0 then .ctrl else .remit, output := t.output } ∧
      t.output.base = s.output.base ∧ Mem.read t.output.cells s.wr = some s.val ∧
      ∀ a, a ≠ s.wr → Mem.read t.output.cells a = Mem.read s.output.cells a

/-! ### Invariants -/

/-- The machine's invariant holds at reset (R109, R111; the empty buffers are log 2). -/
def Obligations.ResetMeetsTheInvariant : Prop := Inv State.reset

/-- R28 and the shapes it rests on: every step, of either agent and either implementation, keeps the invariant. -/
def Obligations.StepKeepsTheInvariant : Prop :=
  ∀ s t : State, Inv s → step s = .next t → Inv t

/-- R28, R71: no cursor and no length ever leaves its register's range. -/
def Obligations.StepKeepsRegistersInRange : Prop :=
  ∀ s t : State, Inv s → InRange s → step s = .next t → InRange t

/-- R95: from a state with the invariant no step faults, whatever the bytes, the lengths and the host's action. -/
def Obligations.NoStepFaults : Prop := ∀ (s : State) (f : Fault), Inv s → step s ≠ .fault f

/-- R118: in SCAN, in a state with the invariant, the decoder's turn always completes, whatever byte stands at `rd`. -/
def Obligations.DecoderTurnAlwaysCompletes : Prop :=
  ∀ s : State, Inv s → s.st = .scan → ∃ t, decoderTurn s = .next t

/-- R15: the transitions of `st`, and that no other exists. -/
def Obligations.FsmMovesOnlyAsListed : Prop :=
  ∀ s t : State, step s = .next t →
    t.st = s.st ∨
    (t.st = .idle ∧ s.nextTurn.1 = .host .reset) ∨
    (t.st = .scan ∧ (s.st = .idle ∨ s.st = .done) ∧ ∃ l c, s.nextTurn.1 = .host (.start l c)) ∨
    (t.st = .done ∧ s.st = .scan ∧ s.nextTurn.1 = .decoder ∧ (s.wr = s.outCap ∨ s.rd = s.inLen))

/-- R27: no host action but START and RESET changes a register. -/
def Obligations.OnlyStartAndResetChangeRegisters : Prop :=
  ∀ (a : HostAction) (s t : State), a ≠ .reset → (∀ l c, a ≠ .start l c) → hostTurn a s = .next t →
    t.st = s.st ∧ t.inLen = s.inLen ∧ t.outCap = s.outCap ∧ t.rd = s.rd ∧ t.wr = s.wr ∧ t.trunc = s.trunc ∧
    t.clamp = s.clamp ∧ t.ph = s.ph ∧ t.cnt = s.cnt ∧ t.val = s.val ∧ t.impl = s.impl

/-- R29: while no job is started or abandoned, the cursors do not decrease, the flags only rise, the lengths stand,
and in DONE no register changes. -/
def Obligations.RegistersMoveOneWayWithinAJob : Prop :=
  ∀ s t : State, step s = .next t → s.nextTurn.1 ≠ .host .reset →
    (∀ l c, s.nextTurn.1 = .host (.start l c) → s.st = .scan) →
    s.rd ≤ t.rd ∧ s.wr ≤ t.wr ∧ (s.trunc = true → t.trunc = true) ∧ (s.clamp = true → t.clamp = true) ∧
    t.inLen = s.inLen ∧ t.outCap = s.outCap ∧
    (s.st = .done → t.st = .done ∧ t.rd = s.rd ∧ t.wr = s.wr ∧ t.trunc = s.trunc ∧ t.clamp = s.clamp)

/-! ### What the decoder reads and writes -/

/-- R37: the decoder never writes IN, and what it does never depends on what stands in OUT: over any other contents of
OUT it stores the same bytes at the same offsets, leaves the others, and does the same to everything else. -/
def Obligations.DecoderNeitherWritesInNorReadsOut : Prop :=
  ∀ (s t : State) (o : Buffer), o.cells.map Prod.fst = s.output.cells.map Prod.fst → decoderTurn s = .next t →
    t.input = s.input ∧ ∃ o', decoderTurn { s with output := o } = .next { t with output := o' } ∧ o'.base = o.base ∧
      (∀ a, s.wr ≤ a → a < t.wr → Mem.read o'.cells a = Mem.read t.output.cells a) ∧
      ∀ a, a < s.wr ∨ t.wr ≤ a → Mem.read o'.cells a = Mem.read o.cells a

/-- R35, R39: a decoder step reads only the IN bytes it moves `rd` past, and `rd` never passes `in_len`: with any
other IN buffer that agrees on those bytes it does the same. -/
def Obligations.DecoderReadsOnlyTheBytesPassed : Prop :=
  ∀ (s t : State) (i' : Buffer), Inv s → decoderTurn s = .next t →
    (∀ a, s.rd ≤ a → a < t.rd → Mem.read i'.cells a = Mem.read s.input.cells a) →
    t.rd ≤ s.inLen ∧ decoderTurn { s with input := i' } = .next { t with input := i' }

/-- R36, R40, R41: a decoder step writes OUT only at the offsets it moves `wr` past, all below `out_cap`. -/
def Obligations.DecoderWritesOnlyAtTheCursor : Prop :=
  ∀ s t : State, Inv s → decoderTurn s = .next t →
    s.wr ≤ t.wr ∧ t.wr ≤ s.outCap ∧ t.output.base = s.output.base ∧
    ∀ a, a < s.wr ∨ t.wr ≤ a → Mem.read t.output.cells a = Mem.read s.output.cells a

/-- R20, R21, R97: the two flags steer nothing: with any flags the decoder's step is the same but for the flags. -/
def Obligations.FlagsSteerNothing : Prop :=
  ∀ (s t : State) (p q : Bool), decoderTurn s = .next t →
    ∃ p' q', decoderTurn { s with trunc := p, clamp := q } = .next { t with trunc := p', clamp := q' }

/-! ### The host -/

/-- R74: a START that meets the launch conditions of R112 takes effect in IDLE and in DONE; it writes the job
registers and no memory. `ph` and `cnt` are R86's; nothing is said of the host's own mark `doneRead` (log 24). -/
def Obligations.StartBeginsAJob : Prop :=
  ∀ (s : State) (l c : Nat), s.st ≠ .scan → l ≤ s.input.size → c ≤ s.output.size →
    s.input.overlaps l s.output c = false → l < 2 ^ Config.inLenW → c < 2 ^ Config.outCapW →
    ∃ t, hostTurn (.start l c) s = .next t ∧ t = { s with
      st := .scan, inLen := l, outCap := c, rd := 0, wr := 0, trunc := false, clamp := false
      ph := .ctrl, cnt := 0, doneRead := t.doneRead }

/-- R75: a START in BUSY is ignored. -/
def Obligations.StartInBusyIsIgnored : Prop :=
  ∀ (s : State) (l c : Nat), s.st = .scan → hostTurn (.start l c) s = .next s

/-- R81, R83: a launch onto buffers that are too short or overlap is refused. -/
def Obligations.BadLaunchesAreRefused : Prop :=
  ∀ (s : State) (l c : Nat), s.st ≠ .scan →
    (s.input.size < l ∨ s.output.size < c ∨
      (0 < l ∧ 0 < c ∧ s.input.base < s.output.base + c ∧ s.output.base < s.input.base + l)) →
    ∃ r, hostTurn (.start l c) s = .refused r

/-- R80, R82: while BUSY the host may write neither the job's input nor its output, at any system address of theirs
and through either buffer. That it may not read the input either, nor replace the buffers, is the model's choice
(log 10); so is that the output and the buffers stay the job's until a STATUS read has returned DONE (log 24). -/
def Obligations.BusyBuffersAreTheJobs : Prop :=
  ∀ s : State,
    (s.st = .scan → ∀ i b, i < s.inLen →
      hostTurn (.writeIn i b) s = .refused .hostTouchesInputWhileBusy ∧
      hostTurn (.readIn i) s = .refused .hostTouchesInputWhileBusy) ∧
    (s.st = .scan ∨ (s.st = .done ∧ s.doneRead = false) →
      (∀ j b, j < s.outCap → hostTurn (.writeOut j b) s = .refused .hostWritesOutputWhileBusy) ∧
      ∀ ib is ob os, hostTurn (.place ib is ob os) s = .refused .buffersMovedWhileBusy) ∧
    (s.st = .scan → ∀ j b, s.outCap ≤ j →
      s.input.base ≤ s.output.base + j → s.output.base + j < s.input.base + s.inLen →
      hostTurn (.writeOut j b) s = .refused .hostTouchesInputWhileBusy) ∧
    (s.st = .scan → ∀ i b, s.inLen ≤ i →
      s.output.base ≤ s.input.base + i → s.input.base + i < s.output.base + s.outCap →
      hostTurn (.writeIn i b) s = .refused .hostWritesOutputWhileBusy)

/-- R11, R84: outside a job's ranges a host write stores one byte of the host's own buffer and changes nothing else. A
job's ranges are its offsets and their system addresses. That bytes of IN at and above `in_len` may be written while
BUSY is the model's reading of R84 (log 10), and that the output stays the job's until a STATUS read has returned DONE
is its choice (log 24). -/
def Obligations.HostWritesStoreOneByte : Prop :=
  ∀ (s : State) (a : Nat) (b : Byte),
    (s.ownsInputAt (s.input.base + a) 1 = false → s.ownsOutputAt (s.input.base + a) 1 = false →
      (Mem.read s.input.cells a).isSome →
      ∃ t, hostTurn (.writeIn a b) s = .next t ∧ t = { s with input := t.input } ∧ t.input.base = s.input.base ∧
        Mem.read t.input.cells a = some b ∧ ∀ x, x ≠ a → Mem.read t.input.cells x = Mem.read s.input.cells x) ∧
    (s.ownsOutputAt (s.output.base + a) 1 = false → s.ownsInputAt (s.output.base + a) 1 = false →
      (Mem.read s.output.cells a).isSome →
      ∃ t, hostTurn (.writeOut a b) s = .next t ∧ t = { s with output := t.output } ∧
        t.output.base = s.output.base ∧ Mem.read t.output.cells a = some b ∧
        ∀ x, x ≠ a → Mem.read t.output.cells x = Mem.read s.output.cells x)

/-- R25, R76: READ answers the register of that number, 0 for any other number, and changes no state of the block. The
answer goes to the host's list (log 15), and a STATUS read in DONE tells the host that the job is over (log 24). In
BUSY the counts and flags are those of the instance's own implementation (log 23). -/
def Obligations.ReadAnswersTheRegister : Prop :=
  ∀ (s : State) (r : Nat), ∃ v,
    hostTurn (.read r) s = .next { s with
      replies := .register r v :: s.replies
      doneRead := s.doneRead || (decide (r = 0) && decide (s.st = .done)) } ∧
    (r = 0 → v = s.statusWord.toNat) ∧ (r = 1 → v = s.inLen) ∧ (r = 2 → v = s.outCap) ∧ (r = 3 → v = s.rd) ∧
    (r = 4 → v = s.wr) ∧ (5 ≤ r → v = 0)

/-- R26: the fields of STATUS, and its reset value. -/
def Obligations.StatusFields : Prop :=
  State.reset.statusWord = 0#8 ∧ ∀ s : State,
    (s.statusWord.extractLsb' 0 2).toNat = (match s.st with | .idle => 0 | .scan => 1 | .done => 2) ∧
    s.statusWord.getLsbD 2 = s.trunc ∧ s.statusWord.getLsbD 3 = s.clamp ∧
    (s.statusWord.getLsbD 4 = true ↔ s.st = .done ∧ s.wr < s.outCap) ∧
    s.statusWord.extractLsb' 5 3 = 0#3

/-- R109: RESET sets every register of R13 and R86, in any state; it leaves IN alone, and OUT too outside BUSY. -/
def Obligations.ResetClearsEveryRegister : Prop :=
  ∀ s : State, ∃ t, hostTurn .reset s = .next t ∧
    t.st = .idle ∧ t.inLen = 0 ∧ t.outCap = 0 ∧ t.rd = 0 ∧ t.wr = 0 ∧ t.trunc = false ∧ t.clamp = false ∧
    t.ph = .ctrl ∧ t.cnt = 0 ∧ t.val = 0#8 ∧ t.input = s.input ∧ (s.st ≠ .scan → t.output = s.output) ∧
    ∀ r, t.readRegister r = 0

/-- R110: after a RESET in BUSY the OUT bytes below the abandoned job's `out_cap` are free values (log 6), the others
stand, and IN is unchanged. -/
def Obligations.ResetInBusyFreesTheOutput : Prop :=
  ∀ s : State, s.st = .scan → ∃ t, hostTurn .reset s = .next t ∧ t.input = s.input ∧ t.fresh = s.fresh + 1 ∧
    (∀ j, j < s.outCap → (Mem.read s.output.cells j).isSome →
      Mem.read t.output.cells j = some (Config.freeByte s.fresh j)) ∧
    ∀ j, s.outCap ≤ j → Mem.read t.output.cells j = Mem.read s.output.cells j

/-- R111: the state after power-up is that of RESET: every register reads 0, and a RESET changes nothing of it. -/
def Obligations.PowerUpIsReset : Prop :=
  State.reset.st = .idle ∧ (∀ r, State.reset.readRegister r = 0) ∧
  State.reset.ph = .ctrl ∧ State.reset.cnt = 0 ∧ State.reset.val = 0#8 ∧
  hostTurn .reset State.reset = .next State.reset

/-- R47, I3, R113: an OUT byte read while BUSY is a free value (log 6), and so in DONE until a STATUS read has returned
DONE for the job (log 24); after that, and in IDLE, it is the byte that stands there. -/
def Obligations.OutputReadsAreFreeWhileBusy : Prop :=
  ∀ (s : State) (j : Nat) (b : Byte), Mem.read s.output.cells j = some b →
    (s.st = .scan ∨ (s.st = .done ∧ s.doneRead = false) → hostTurn (.readOut j) s = .next { s with
      replies := .outByte j (Config.freeByte s.fresh j) :: s.replies, fresh := s.fresh + 1 }) ∧
    (s.st = .idle ∨ (s.st = .done ∧ s.doneRead = true) →
      hostTurn (.readOut j) s = .next { s with replies := .outByte j b :: s.replies })

/-- R77, R84: in DONE, once a STATUS read has returned DONE for the job, the host gets the first OUT_COUNT bytes of OUT,
IN_COUNT and the flags. That collecting is refused before that, in IDLE too, is the model's choice (log 10, log 24). -/
def Obligations.CollectGivesTheResult : Prop :=
  ∀ s : State, Inv s →
    (s.st = .done → s.doneRead = true → s.wr ≤ s.output.size → ∃ bytes : List Byte, bytes.length = s.wr ∧
      (∀ k, k < s.wr → Mem.read s.output.cells k = bytes[k]?) ∧
      hostTurn .collect s = .next { s with
        replies := .result bytes s.rd s.trunc s.clamp (decide (s.wr < s.outCap)) :: s.replies }) ∧
    (s.st ≠ .done ∨ s.doneRead = false → hostTurn .collect s = .refused .resultBeforeDone)

/-- R84, R113: only a STATUS read in DONE tells the host that the job is over; nothing else sets `doneRead`, and a START
that takes effect or a RESET clears it (the field is the model's, log 24). -/
def Obligations.OnlyAStatusReadShowsDone : Prop :=
  ∀ s t : State, Inv s → step s = .next t →
    (t.doneRead = true ↔
      (s.doneRead = true ∧ t.st = .done) ∨ (s.nextTurn.1 = .host (.read 0) ∧ s.st = .done))

/-- R84: the host reads a byte of IN outside a running job's input and gets the byte that stands there; where its system
address lies in an output that is not yet the host's, it gets a free value, as from a read of OUT (log 10). -/
def Obligations.HostReadsOfInputAnswerTheByte : Prop :=
  ∀ (s : State) (i : Nat) (b : Byte), Mem.read s.input.cells i = some b →
    (s.st = .scan → s.inLen ≤ i) →
    (s.ownsOutputAt (s.input.base + i) 1 = false →
      hostTurn (.readIn i) s = .next { s with replies := .inByte i b :: s.replies }) ∧
    (s.ownsOutputAt (s.input.base + i) 1 = true → hostTurn (.readIn i) s = .next { s with
      replies := .inByte i (Config.freeByte s.fresh (s.input.base + i - s.output.base)) :: s.replies
      fresh := s.fresh + 1 })

/-- W6 under the spec's reading of "well-formed" (D22): in DONE, SHORT is 0 exactly when the output is full. -/
def Obligations.ShortTellsAShortResult : Prop :=
  ∀ s : State, Inv s → s.st = .done → (s.short = false ↔ s.wr = s.outCap)

/-- R99 item 2, R76: host READs interleaved in any way with decoder steps change nothing but the host's answers, and
what the host knows: `doneRead` is set exactly when an answer says DONE (log 24). -/
def Obligations.PollingChangesNothing : Prop :=
  ∀ (s u : State) (turns : List Turn), (∀ x ∈ turns, x = .decoder ∨ ∃ r, x = .host (.read r)) →
    runSteps (turns.count .decoder) { s with schedule := [] } = .next u →
    ∃ answers, runSteps turns.length { s with schedule := turns } = .next { u with
      replies := answers ++ s.replies, doneRead := s.doneRead || answers.any Reply.saysDone }

/-- R73, R75, R99 item 2: host actions interleaved in any way with the decoder's steps while a job runs leave the job as
it is. They are any actions but RESET that the block's rules admit in BUSY: READ, an ignored START, a read of OUT, an
access outside the job's ranges. The job's next step, END among them, is then the same too. -/
def Obligations.HostActionsInBusyLeaveTheJob : Prop :=
  ∀ (s u : State) (turns : List Turn), Inv s → s.st = .scan →
    (∀ a, .host a ∈ turns → a ≠ .reset ∧ ∃ t, hostTurn a s = .next t) →
    runSteps (turns.count .decoder) { s with schedule := [] } = .next u → u.st = .scan →
    ∃ t, runSteps turns.length { s with schedule := turns } = .next t ∧ t.schedule = [] ∧ SameJob u t ∧
      ∀ v, step u = .next v → ∃ w, step t = .next w ∧ SameJob v w

/-! ### Whole jobs -/

/-- R69, R117: a unit-level job reaches DONE in at most one step per input byte left, and one END step. -/
def Obligations.UnitLevelJobEnds : Prop :=
  ∀ s : State, Inv s → s.st = .scan → s.impl = .unitLevel → s.schedule = [] →
    ∃ t, runSteps (s.inLen - s.rd + 1) s = .next t ∧ t.st = .done

/-- R93, R117: a byte-level job reaches DONE in at most `in_len + out_cap + 1` steps. -/
def Obligations.ByteLevelJobEnds : Prop :=
  ∀ s : State, JobStarted s → s.schedule = [] → s.impl = .byteLevel →
    ∃ t, runSteps (s.inLen + s.outCap + 1) s = .next t ∧ t.st = .done

/-- R92: from any unit boundary, one step of the unit-level machine is matched by some steps of the byte-level
engine: they end at the next unit boundary, or in DONE, with the same registers, flags and OUT (`val` is dead
there), and no unit boundary lies between. -/
def Obligations.ByteEngineSimulatesTheUnitMachine : Prop :=
  ∀ s u : State, Inv s → s.st = .scan → s.impl = .byteLevel → s.ph = .ctrl → s.schedule = [] →
    step { s with impl := .unitLevel } = .next u →
    ∃ k t, 1 ≤ k ∧ runSteps k s = .next t ∧ t = { u with impl := .byteLevel, val := t.val } ∧ t.ph = .ctrl ∧
      ∀ j w, 0 < j → j < k → runSteps j s = .next w → w.ph ≠ .ctrl

/-- R73, R77 with the source's contract: a job, on either implementation, gives what `decodeCall` computes from its
input bytes and its two lengths, leaves OUT beyond the result as it was (R41), and leaves IN and the lengths alone. -/
def Obligations.JobComputesTheDecodeCall : Prop :=
  ∀ (s : State) (bytes : List Byte), JobStarted s → s.schedule = [] → Mem.readRun s.input.cells s.inLen 0 = some bytes →
    let r := decodeCall bytes s.inLen s.outCap
    ∃ t, runSteps (s.inLen + s.outCap + 1) s = .next t ∧ t.st = .done ∧
      t.wr = r.bytes.length ∧ t.rd = r.consumed ∧ t.trunc = r.trunc ∧ t.clamp = r.clamp ∧
      Mem.readRun t.output.cells t.wr 0 = some r.bytes ∧
      (∀ a, t.wr ≤ a → Mem.read t.output.cells a = Mem.read s.output.cells a) ∧
      t.input = s.input ∧ t.inLen = s.inLen ∧ t.outCap = s.outCap

/-- R73, R92: what a job leaves in DONE is a function of `in_len`, `out_cap` and `IN[0 .. in_len-1]` alone: two jobs
that agree on these agree when they reach DONE, on any two admitted implementations, with any other contents of the
buffers, and whatever the host does on the way, as long as it keeps its duties and does not RESET the block. A run in
which the host breaks a duty is no run of the model, R84's among them (log 10). -/
def Obligations.ResultIsAFunctionOfTheJob : Prop :=
  ∀ (s s' t t' : State) (k k' : Nat), JobStarted s → JobStarted s' → s.inLen = s'.inLen → s.outCap = s'.outCap →
    (∀ a, a < s.inLen → Mem.read s.input.cells a = Mem.read s'.input.cells a) →
    JobDoneAt k s t → JobDoneAt k' s' t' →
    t.rd = t'.rd ∧ t.wr = t'.wr ∧ t.trunc = t'.trunc ∧ t.clamp = t'.clamp ∧
      ∀ a, a < t.wr → Mem.read t.output.cells a = Mem.read t'.output.cells a

/-- W7: decoding what any encoder made of an output gives that output. The encoder is a parameter: all that is asked
of it is that its units expand to the output. -/
def Obligations.RoundTripOfAnyEncoder : Prop :=
  ∀ (s : State) (units : List Item) (bytes : List Byte), JobStarted s → s.schedule = [] →
    (∀ it ∈ units, it.isUnit = true ∧ it.wellFormed = true) → assemble units = some bytes →
    s.inLen = bytes.length → s.outCap = (units.flatMap Item.expand).length →
    Mem.readRun s.input.cells s.inLen 0 = some bytes →
    ∃ t, runSteps (s.inLen + s.outCap + 1) s = .next t ∧ t.st = .done ∧
      Mem.readRun t.output.cells t.wr 0 = some (units.flatMap Item.expand) ∧
      t.trunc = false ∧ t.clamp = false ∧ t.short = false

/-- R79, R77, R84: the host's sequence of supplying the buffers, START, waiting with any READs between the decoder's
steps, reading STATUS and collecting returns the decoded bytes with the counts and flags, from IDLE or from a DONE that
the host has read, whatever OUT held. -/
def Obligations.HostCallReturnsTheDecode : Prop :=
  ∀ (s : State) (inBase outBase : Nat) (inBytes outBytes : List Byte) (l c : Nat) (wait : List Turn), Inv s →
    s.st = .idle ∨ (s.st = .done ∧ s.doneRead = true) →
    (∀ x ∈ wait, x = .decoder ∨ ∃ r, x = .host (.read r)) → l + c + 1 ≤ wait.count .decoder →
    l ≤ inBytes.length → c ≤ outBytes.length → l < 2 ^ Config.inLenW → c < 2 ^ Config.outCapW →
    (Buffer.ofBytes inBase inBytes).overlaps l (Buffer.ofBytes outBase outBytes) c = false →
    let turns := callTurns inBase inBytes outBase outBytes l c wait
    let r := decodeCall inBytes l c
    ∃ t answers, runSteps turns.length { s with schedule := turns } = .next t ∧ t.st = .done ∧
      (∀ x ∈ answers, ∃ r v, x = .register r v) ∧
      t.replies = .result r.bytes r.consumed r.trunc r.clamp (decide (r.bytes.length < c)) ::
        .register 0 t.statusWord.toNat :: (answers ++ s.replies)

/-! ### Several instances -/

/-- R51, R106: a step of one instance is that instance's own step and changes no other. That the other instances'
buffers stand too, also where buffers share system addresses, is the model's choice (log 14). -/
def Obligations.InstancesShareNoState : Prop :=
  ∀ (sys sys' : System) (k : Nat), sys.step k = .next sys' →
    ∃ s t, sys.instances[k]? = some s ∧ step s = .next t ∧ sys'.instances[k]? = some t ∧
      sys'.instances.length = sys.instances.length ∧
      ∀ j, j ≠ k → sys'.instances[j]? = sys.instances[j]?

/-- R81: a START onto buffers that a running job of another instance uses, one of the two writing, is refused. So is a
host access through one instance's buffers to bytes that a job of another owns, by the model's choice (log 14). -/
def Obligations.SharedBuffersAreRefused : Prop :=
  ∀ (sys : System) (j k : Nat) (s o : State), j ≠ k → sys.instances[k]? = some s → sys.instances[j]? = some o →
    (∀ (u : State) (l c : Nat), s.st ≠ .scan → s.nextTurn = (.host (.start l c), u) → o.st = .scan →
      (s.output.overlaps c o.output o.outCap = true ∨ s.output.overlaps c o.input o.inLen = true ∨
        o.output.overlaps o.outCap s.input l = true) →
      sys.step k = .refused .buffersShared) ∧
    (o.ownsInputAt s.touching.1 s.touching.2 = true ∨ o.ownsOutputAt s.touching.1 s.touching.2 = true →
      sys.step k = .refused .buffersShared)
end

