-- ==== Sys2Proof/Laws/Decode.lean ====
section
/-! SUPPORT. Laws of the class decode, the encoder and the assembler. -/

namespace Sys2Proof

/-- Every control byte decodes to a control unit (R56). -/
theorem decodeByte_wellFormed : ∀ c : Byte, (decodeByte c).wellFormed = true := by decide

/-- Encoding what a control byte decodes to gives the byte back. -/
theorem encodeByte_decodeByte : ∀ c : Byte, encodeByte (decodeByte c) = c := by decide

theorem decodeByte_encode_lit : ∀ m : RunField, decodeByte (encodeByte (.lit m)) = .lit m := by decide

theorem decodeByte_encode_rep : ∀ m : RunField, m ≠ 0 → decodeByte (encodeByte (.rep m)) = .rep m := by decide

/-- A control byte below 0x80 is a LIT whose field is the byte (R53). -/
theorem decodeByte_ofNat_lit {n : Nat} (h : n < 128) :
    decodeByte (BitVec.ofNat 8 n) = .lit (BitVec.ofNat 7 n) := by
  have : ∀ n : Fin 128, decodeByte (BitVec.ofNat 8 n) = .lit (BitVec.ofNat 7 n) := by decide
  exact this ⟨n, h⟩

/-- The control byte `257 - L` is a REP of declared length `L` (R54). -/
theorem decodeByte_ofNat_rep {n : Nat} (h2 : 2 ≤ n) (h : n ≤ 128) :
    decodeByte (BitVec.ofNat 8 (257 - n)) = .rep (BitVec.ofNat 7 (129 - n)) := by
  have : ∀ n : Fin 129, 2 ≤ n.val → decodeByte (BitVec.ofNat 8 (257 - n.val)) = .rep (BitVec.ofNat 7 (129 - n.val)) := by
    decide
  exact this ⟨n, by omega⟩ h2

theorem litLength_ofNat {n : Nat} (h1 : 1 ≤ n) (h : n ≤ 128) : litLength (BitVec.ofNat 7 (n - 1)) = n := by
  simp only [litLength, BitVec.toNat_ofNat]; omega

theorem repLength_ofNat {n : Nat} (h2 : 2 ≤ n) (h : n ≤ 128) : repLength (BitVec.ofNat 7 (129 - n)) = n := by
  simp only [repLength, BitVec.toNat_ofNat]; omega

/-- A LIT declares 1 to 128 bytes (R53). -/
theorem litLength_bounds (m : RunField) : 1 ≤ litLength m ∧ litLength m ≤ 128 := by
  simp only [litLength]; omega

/-- A REP declares 2 to 128 bytes (R54). -/
theorem repLength_bounds {m : RunField} (h : m ≠ 0#7) : 2 ≤ repLength m ∧ repLength m ≤ 128 := by
  have hm : m.toNat ≠ 0 := fun h0 => h (BitVec.eq_of_toNat_eq (by simpa using h0))
  simp only [repLength]; omega

/-- A decoded REP has a run-length field that is not 0 (R54). -/
theorem ne_zero_of_decodeByte {c : Byte} {m : RunField} (h : decodeByte c = .rep m) : m ≠ 0#7 := by
  have := decodeByte_wellFormed c
  rw [h] at this
  simpa [Instr.wellFormed] using this

@[simp] theorem assemble_nil : assemble [] = some [] := rfl

theorem assemble_cons (it : Item) (rest : List Item) (bytes : List Byte) :
    assemble (it :: rest) = some bytes ↔
      ∃ b more, assembleItem it = some b ∧ assemble rest = some more ∧ bytes = b ++ more := by
  simp only [assemble]
  cases assembleItem it <;> cases assemble rest <;> simp [eq_comm]

end Sys2Proof
end

