-- ==== Sys2Proof/Laws/Memory.lean ====
section
/-! SUPPORT. The laws of the buffers: a read after a write, and that every memory operation keeps the canonical
form. -/

namespace Sys2Proof.Machine

/-! ### Write -/

@[simp] theorem Mem.keys_write (m : List Host.Cell) (a : Nat) (b : Byte) :
    (Mem.write m a b).map Prod.fst = m.map Prod.fst := by
  induction m with
  | nil => rfl
  | cons c m ih => simp only [Mem.write]; split <;> simp [ih]

@[simp] theorem Mem.length_write (m : List Host.Cell) (a : Nat) (b : Byte) :
    (Mem.write m a b).length = m.length := by
  rw [← List.length_map (f := Prod.fst), Mem.keys_write, List.length_map]

theorem Mem.read_write (m : List Host.Cell) (a x : Nat) (b : Byte) :
    Mem.read (Mem.write m a b) x = if x = a then (Mem.read m a).map (fun _ => b) else Mem.read m x := by
  induction m with
  | nil => simp [Mem.write, Mem.read]
  | cons c m ih =>
    obtain ⟨k, v⟩ := c
    simp only [Mem.write]
    by_cases hk : k = a
    · subst hk
      by_cases hx : x = k
      · simp [Mem.read, hx]
      · simp [Mem.read, hx, Ne.symm hx]
    · by_cases hx : x = a
      · subst hx; simp [Mem.read, hk, ih]
      · by_cases hkx : k = x <;> simp [Mem.read, hk, hx, hkx, ih]

/-- A read of the byte just written gives it. -/
theorem Mem.read_write_same {m : List Host.Cell} {a : Nat} (b : Byte) (h : (Mem.read m a).isSome) :
    Mem.read (Mem.write m a b) a = some b := by
  obtain ⟨v, hv⟩ := Option.isSome_iff_exists.mp h
  simp [Mem.read_write, hv]

/-- A write leaves every other offset alone. -/
theorem Mem.read_write_other {m : List Host.Cell} {a x : Nat} (b : Byte) (h : x ≠ a) :
    Mem.read (Mem.write m a b) x = Mem.read m x := by
  simp [Mem.read_write, h]

@[simp] theorem Mem.isSome_read_write (m : List Host.Cell) (a x : Nat) (b : Byte) :
    (Mem.read (Mem.write m a b) x).isSome = (Mem.read m x).isSome := by
  rw [Mem.read_write]; split <;> simp_all

/-! ### The canonical form -/

theorem Mem.wf_write {m : List Host.Cell} (a : Nat) (b : Byte) (h : Mem.wf m) : Mem.wf (Mem.write m a b) := by
  simpa only [Mem.wf, Mem.keys_write] using h

theorem Mem.full_write {m : List Host.Cell} (a : Nat) (b : Byte) (h : Mem.full m) : Mem.full (Mem.write m a b) := by
  simpa only [Mem.full, Mem.keys_write, Mem.length_write] using h

/-- A full buffer is in canonical form. -/
theorem Mem.wf_of_full {m : List Host.Cell} (h : Mem.full m) : Mem.wf m := by
  rw [Mem.wf, show m.map Prod.fst = List.range m.length from h]
  exact List.pairwise_lt_range

theorem Mem.isSome_read_iff (m : List Host.Cell) (a : Nat) : (Mem.read m a).isSome ↔ a ∈ m.map Prod.fst := by
  induction m with
  | nil => simp [Mem.read]
  | cons c m ih =>
    obtain ⟨k, v⟩ := c
    simp only [Mem.read, List.map_cons, List.mem_cons]
    by_cases hk : k = a
    · simp [hk]
    · simp [hk, Ne.symm hk, ih]

/-- The offsets of a full buffer are those below its size (R33, R34). -/
theorem Mem.isSome_read_of_full {m : List Host.Cell} (h : Mem.full m) (a : Nat) :
    (Mem.read m a).isSome ↔ a < m.length := by
  rw [Mem.isSome_read_iff, show m.map Prod.fst = List.range m.length from h, List.mem_range]

/-- Only the offsets decide whether a memory is full. -/
theorem Mem.full_congr {m m' : List Host.Cell} (h : m'.map Prod.fst = m.map Prod.fst) :
    Mem.full m' ↔ Mem.full m := by
  have hl : m'.length = m.length := by rw [← List.length_map (f := Prod.fst), h, List.length_map]
  rw [Mem.full, Mem.full, h, hl]

/-! ### Buffers made of bytes -/

@[simp] theorem Mem.keys_ofBytesFrom (k : Nat) (bs : List Byte) :
    (Mem.ofBytesFrom k bs).map Prod.fst = List.range' k bs.length := by
  induction bs generalizing k with
  | nil => rfl
  | cons b bs ih => simp [Mem.ofBytesFrom, ih, List.range'_succ]

@[simp] theorem Mem.length_ofBytesFrom (k : Nat) (bs : List Byte) : (Mem.ofBytesFrom k bs).length = bs.length := by
  rw [← List.length_map (f := Prod.fst), Mem.keys_ofBytesFrom, List.length_range']

theorem Mem.full_ofBytes (bs : List Byte) : Mem.full (Mem.ofBytesFrom 0 bs) := by
  simp [Mem.full, List.range_eq_range']

theorem Mem.read_ofBytesFrom (k : Nat) (bs : List Byte) (a : Nat) :
    Mem.read (Mem.ofBytesFrom k bs) a = if a < k then none else bs[a - k]? := by
  induction bs generalizing k with
  | nil => simp [Mem.ofBytesFrom, Mem.read]
  | cons b bs ih =>
    simp only [Mem.ofBytesFrom, Mem.read]
    by_cases hk : k = a
    · simp [hk]
    · rw [if_neg hk, ih]
      by_cases hlt : a < k
      · simp [hlt, Nat.lt_succ_of_lt hlt]
      · have h1 : ¬ a < k + 1 := by omega
        have h2 : a - k = (a - (k + 1)) + 1 := by omega
        simp [hlt, h1, h2]

@[simp] theorem Mem.read_ofBytes (bs : List Byte) (a : Nat) : Mem.read (Mem.ofBytesFrom 0 bs) a = bs[a]? := by
  simp [Mem.read_ofBytesFrom]

/-! ### Loads and the free bytes of RESET -/

/-- A load keeps the canonical form. -/
theorem Mem.wf_load {m : List Host.Cell} (a : Nat) (bs : List Byte) (h : Mem.wf m) : Mem.wf (Mem.load m a bs) := by
  have hp : m.Pairwise (fun c d => c.1 < d.1) := List.pairwise_map.mp h
  have hk : ∀ x ∈ Mem.ofBytesFrom a bs, a ≤ x.1 ∧ x.1 < a + bs.length := by
    intro x hx
    have : x.1 ∈ (Mem.ofBytesFrom a bs).map Prod.fst := List.mem_map_of_mem hx
    simpa [List.mem_range'_1] using this
  refine List.pairwise_map.mpr ?_
  rw [Mem.load, List.pairwise_append, List.pairwise_append]
  refine ⟨⟨hp.filter _, ?_, ?_⟩, hp.filter _, ?_⟩
  · refine List.pairwise_map.mp ?_
    rw [Mem.keys_ofBytesFrom]; exact List.pairwise_lt_range'
  · intro x hx y hy
    have := (List.mem_filter.mp hx).2
    have := hk y hy
    simp_all; omega
  · intro x hx y hy
    have h2 := (List.mem_filter.mp hy).2
    rcases List.mem_append.mp hx with hx | hx
    · have h1 := (List.mem_filter.mp hx).2
      simp at h1 h2; omega
    · have h1 := hk x hx
      simp at h2; omega

theorem Mem.wf_ensure {m : List Host.Cell} (a n : Nat) (h : Mem.wf m) : Mem.wf (Mem.ensure m a n) :=
  Mem.wf_load a _ h

@[simp] theorem Mem.keys_scramble (d n : Nat) (m : List Host.Cell) :
    (Mem.scramble d n m).map Prod.fst = m.map Prod.fst := by
  simp only [Mem.scramble, List.map_map]
  exact List.map_congr_left fun c _ => by simp only [Function.comp_apply]; split <;> rfl

@[simp] theorem Mem.length_scramble (d n : Nat) (m : List Host.Cell) : (Mem.scramble d n m).length = m.length := by
  simp [Mem.scramble]

theorem Mem.full_scramble (d n : Nat) {m : List Host.Cell} (h : Mem.full m) : Mem.full (Mem.scramble d n m) :=
  (Mem.full_congr (Mem.keys_scramble d n m)).mpr h

theorem Mem.wf_scramble (d n : Nat) {m : List Host.Cell} (h : Mem.wf m) : Mem.wf (Mem.scramble d n m) := by
  simpa only [Mem.wf, Mem.keys_scramble] using h

/-- The bytes below `n` are free, the others stand (R110). -/
theorem Mem.read_scramble (d n : Nat) (m : List Host.Cell) (a : Nat) :
    Mem.read (Mem.scramble d n m) a =
      if a < n then (Mem.read m a).map (fun _ => Config.freeByte d a) else Mem.read m a := by
  induction m with
  | nil => simp [Mem.scramble, Mem.read]
  | cons c m ih =>
    obtain ⟨k, v⟩ := c
    have hc : Mem.scramble d n ((k, v) :: m) =
        (if k < n then (k, Config.freeByte d k) else (k, v)) :: Mem.scramble d n m := rfl
    rw [hc]
    by_cases hk : k = a
    · subst hk; by_cases hn : k < n <;> simp [Mem.read, hn]
    · have : Mem.read ((if k < n then (k, Config.freeByte d k) else (k, v)) :: Mem.scramble d n m) a
          = Mem.read (Mem.scramble d n m) a := by
        split <;> simp [Mem.read, hk]
      rw [this, ih]; simp [Mem.read, hk]

/-! ### Runs of bytes -/

/-- A run of bytes is read when each of its bytes is there. -/
theorem Mem.readRun_eq_some_iff (m : List Host.Cell) (n a : Nat) (bs : List Byte) :
    Mem.readRun m n a = some bs ↔ bs.length = n ∧ ∀ k, k < n → Mem.read m (a + k) = bs[k]? := by
  induction n generalizing a bs with
  | zero =>
    simp only [Mem.readRun, Option.some.injEq]
    constructor
    · rintro rfl; simp
    · rintro ⟨h, -⟩; exact (List.length_eq_zero_iff.mp h).symm
  | succ n ih =>
    simp only [Mem.readRun]
    cases bs with
    | nil => split <;> simp
    | cons b bs =>
      constructor
      · split
        · rename_i b' bs' hb hbs
          rintro ⟨⟩
          obtain ⟨hl, hr⟩ := (ih (a + 1) bs).mp hbs
          refine ⟨by simp [hl], fun k hk => ?_⟩
          cases k with
          | zero => simpa using hb
          | succ k => simpa [Nat.add_assoc, Nat.add_comm 1] using hr k (by omega)
        · simp
      · rintro ⟨hl, hr⟩
        have h0 : Mem.read m a = some b := by simpa using hr 0 (by omega)
        have h1 : Mem.readRun m n (a + 1) = some bs :=
          (ih (a + 1) bs).mpr ⟨by simpa using hl, fun k hk => by
            simpa [Nat.add_assoc, Nat.add_comm 1] using hr (k + 1) (by omega)⟩
        rw [h0, h1]

/-- A run that lies in a full buffer can be read. -/
theorem Mem.readRun_of_full {m : List Host.Cell} (h : Mem.full m) {n a : Nat} (hn : a + n ≤ m.length) :
    ∃ bs, Mem.readRun m n a = some bs := by
  induction n generalizing a with
  | zero => exact ⟨[], rfl⟩
  | succ n ih =>
    obtain ⟨bs, hbs⟩ := ih (a := a + 1) (by omega)
    obtain ⟨b, hb⟩ := Option.isSome_iff_exists.mp ((Mem.isSome_read_of_full h a).mpr (by omega))
    exact ⟨b :: bs, by simp [Mem.readRun, hb, hbs]⟩

end Sys2Proof.Machine
end

