-- ==== Sys2Proof/Laws/State.lean ====
section
/-! SUPPORT. One lemma per field per named update of the state, each true by unfolding. -/

namespace Sys2Proof.Machine

@[simp] theorem State.advance_st (s : State) (n k : Nat) : (s.advance n k).st = s.st := rfl
@[simp] theorem State.advance_inLen (s : State) (n k : Nat) : (s.advance n k).inLen = s.inLen := rfl
@[simp] theorem State.advance_outCap (s : State) (n k : Nat) : (s.advance n k).outCap = s.outCap := rfl
@[simp] theorem State.advance_rd (s : State) (n k : Nat) : (s.advance n k).rd = s.rd + n := rfl
@[simp] theorem State.advance_wr (s : State) (n k : Nat) : (s.advance n k).wr = s.wr + k := rfl
@[simp] theorem State.advance_trunc (s : State) (n k : Nat) : (s.advance n k).trunc = s.trunc := rfl
@[simp] theorem State.advance_clamp (s : State) (n k : Nat) : (s.advance n k).clamp = s.clamp := rfl
@[simp] theorem State.advance_ph (s : State) (n k : Nat) : (s.advance n k).ph = s.ph := rfl
@[simp] theorem State.advance_cnt (s : State) (n k : Nat) : (s.advance n k).cnt = s.cnt := rfl
@[simp] theorem State.advance_val (s : State) (n k : Nat) : (s.advance n k).val = s.val := rfl
@[simp] theorem State.advance_input (s : State) (n k : Nat) : (s.advance n k).input = s.input := rfl
@[simp] theorem State.advance_output (s : State) (n k : Nat) : (s.advance n k).output = s.output := rfl
@[simp] theorem State.advance_impl (s : State) (n k : Nat) : (s.advance n k).impl = s.impl := rfl
@[simp] theorem State.advance_schedule (s : State) (n k : Nat) : (s.advance n k).schedule = s.schedule := rfl
@[simp] theorem State.advance_replies (s : State) (n k : Nat) : (s.advance n k).replies = s.replies := rfl
@[simp] theorem State.advance_fresh (s : State) (n k : Nat) : (s.advance n k).fresh = s.fresh := rfl
@[simp] theorem State.advance_doneRead (s : State) (n k : Nat) : (s.advance n k).doneRead = s.doneRead := rfl

@[simp] theorem State.finish_st (s : State) : (s.finish).st = .done := rfl
@[simp] theorem State.finish_inLen (s : State) : (s.finish).inLen = s.inLen := rfl
@[simp] theorem State.finish_outCap (s : State) : (s.finish).outCap = s.outCap := rfl
@[simp] theorem State.finish_rd (s : State) : (s.finish).rd = s.rd := rfl
@[simp] theorem State.finish_wr (s : State) : (s.finish).wr = s.wr := rfl
@[simp] theorem State.finish_trunc (s : State) : (s.finish).trunc = s.trunc := rfl
@[simp] theorem State.finish_clamp (s : State) : (s.finish).clamp = s.clamp := rfl
@[simp] theorem State.finish_ph (s : State) : (s.finish).ph = s.ph := rfl
@[simp] theorem State.finish_cnt (s : State) : (s.finish).cnt = s.cnt := rfl
@[simp] theorem State.finish_val (s : State) : (s.finish).val = s.val := rfl
@[simp] theorem State.finish_input (s : State) : (s.finish).input = s.input := rfl
@[simp] theorem State.finish_output (s : State) : (s.finish).output = s.output := rfl
@[simp] theorem State.finish_impl (s : State) : (s.finish).impl = s.impl := rfl
@[simp] theorem State.finish_schedule (s : State) : (s.finish).schedule = s.schedule := rfl
@[simp] theorem State.finish_replies (s : State) : (s.finish).replies = s.replies := rfl
@[simp] theorem State.finish_fresh (s : State) : (s.finish).fresh = s.fresh := rfl
@[simp] theorem State.finish_doneRead (s : State) : (s.finish).doneRead = s.doneRead := rfl

@[simp] theorem State.startJob_st (s : State) (l c : Nat) : (s.startJob l c).st = .scan := rfl
@[simp] theorem State.startJob_inLen (s : State) (l c : Nat) : (s.startJob l c).inLen = l := rfl
@[simp] theorem State.startJob_outCap (s : State) (l c : Nat) : (s.startJob l c).outCap = c := rfl
@[simp] theorem State.startJob_rd (s : State) (l c : Nat) : (s.startJob l c).rd = 0 := rfl
@[simp] theorem State.startJob_wr (s : State) (l c : Nat) : (s.startJob l c).wr = 0 := rfl
@[simp] theorem State.startJob_trunc (s : State) (l c : Nat) : (s.startJob l c).trunc = false := rfl
@[simp] theorem State.startJob_clamp (s : State) (l c : Nat) : (s.startJob l c).clamp = false := rfl
@[simp] theorem State.startJob_ph (s : State) (l c : Nat) : (s.startJob l c).ph = .ctrl := rfl
@[simp] theorem State.startJob_cnt (s : State) (l c : Nat) : (s.startJob l c).cnt = 0 := rfl
@[simp] theorem State.startJob_val (s : State) (l c : Nat) : (s.startJob l c).val = s.val := rfl
@[simp] theorem State.startJob_input (s : State) (l c : Nat) : (s.startJob l c).input = s.input := rfl
@[simp] theorem State.startJob_output (s : State) (l c : Nat) : (s.startJob l c).output = s.output := rfl
@[simp] theorem State.startJob_impl (s : State) (l c : Nat) : (s.startJob l c).impl = s.impl := rfl
@[simp] theorem State.startJob_schedule (s : State) (l c : Nat) : (s.startJob l c).schedule = s.schedule := rfl
@[simp] theorem State.startJob_replies (s : State) (l c : Nat) : (s.startJob l c).replies = s.replies := rfl
@[simp] theorem State.startJob_fresh (s : State) (l c : Nat) : (s.startJob l c).fresh = s.fresh := rfl
@[simp] theorem State.startJob_doneRead (s : State) (l c : Nat) : (s.startJob l c).doneRead = false := rfl

@[simp] theorem State.resetRegisters_st (s : State) : (s.resetRegisters).st = .idle := rfl
@[simp] theorem State.resetRegisters_inLen (s : State) : (s.resetRegisters).inLen = 0 := rfl
@[simp] theorem State.resetRegisters_outCap (s : State) : (s.resetRegisters).outCap = 0 := rfl
@[simp] theorem State.resetRegisters_rd (s : State) : (s.resetRegisters).rd = 0 := rfl
@[simp] theorem State.resetRegisters_wr (s : State) : (s.resetRegisters).wr = 0 := rfl
@[simp] theorem State.resetRegisters_trunc (s : State) : (s.resetRegisters).trunc = false := rfl
@[simp] theorem State.resetRegisters_clamp (s : State) : (s.resetRegisters).clamp = false := rfl
@[simp] theorem State.resetRegisters_ph (s : State) : (s.resetRegisters).ph = .ctrl := rfl
@[simp] theorem State.resetRegisters_cnt (s : State) : (s.resetRegisters).cnt = 0 := rfl
@[simp] theorem State.resetRegisters_val (s : State) : (s.resetRegisters).val = 0#8 := rfl
@[simp] theorem State.resetRegisters_input (s : State) : (s.resetRegisters).input = s.input := rfl
@[simp] theorem State.resetRegisters_output (s : State) : (s.resetRegisters).output = s.output := rfl
@[simp] theorem State.resetRegisters_impl (s : State) : (s.resetRegisters).impl = s.impl := rfl
@[simp] theorem State.resetRegisters_schedule (s : State) : (s.resetRegisters).schedule = s.schedule := rfl
@[simp] theorem State.resetRegisters_replies (s : State) : (s.resetRegisters).replies = s.replies := rfl
@[simp] theorem State.resetRegisters_fresh (s : State) : (s.resetRegisters).fresh = s.fresh := rfl
@[simp] theorem State.resetRegisters_doneRead (s : State) : (s.resetRegisters).doneRead = false := rfl

@[simp] theorem State.answer_st (s : State) (r : Reply) : (s.answer r).st = s.st := rfl
@[simp] theorem State.answer_inLen (s : State) (r : Reply) : (s.answer r).inLen = s.inLen := rfl
@[simp] theorem State.answer_outCap (s : State) (r : Reply) : (s.answer r).outCap = s.outCap := rfl
@[simp] theorem State.answer_rd (s : State) (r : Reply) : (s.answer r).rd = s.rd := rfl
@[simp] theorem State.answer_wr (s : State) (r : Reply) : (s.answer r).wr = s.wr := rfl
@[simp] theorem State.answer_trunc (s : State) (r : Reply) : (s.answer r).trunc = s.trunc := rfl
@[simp] theorem State.answer_clamp (s : State) (r : Reply) : (s.answer r).clamp = s.clamp := rfl
@[simp] theorem State.answer_ph (s : State) (r : Reply) : (s.answer r).ph = s.ph := rfl
@[simp] theorem State.answer_cnt (s : State) (r : Reply) : (s.answer r).cnt = s.cnt := rfl
@[simp] theorem State.answer_val (s : State) (r : Reply) : (s.answer r).val = s.val := rfl
@[simp] theorem State.answer_input (s : State) (r : Reply) : (s.answer r).input = s.input := rfl
@[simp] theorem State.answer_output (s : State) (r : Reply) : (s.answer r).output = s.output := rfl
@[simp] theorem State.answer_impl (s : State) (r : Reply) : (s.answer r).impl = s.impl := rfl
@[simp] theorem State.answer_schedule (s : State) (r : Reply) : (s.answer r).schedule = s.schedule := rfl
@[simp] theorem State.answer_replies (s : State) (r : Reply) : (s.answer r).replies = r :: s.replies := rfl
@[simp] theorem State.answer_fresh (s : State) (r : Reply) : (s.answer r).fresh = s.fresh := rfl
@[simp] theorem State.answer_doneRead (s : State) (r : Reply) : (s.answer r).doneRead = s.doneRead := rfl

@[simp] theorem State.noteTrunc_st (s : State) (b : Bool) : (s.noteTrunc b).st = s.st := rfl
@[simp] theorem State.noteTrunc_inLen (s : State) (b : Bool) : (s.noteTrunc b).inLen = s.inLen := rfl
@[simp] theorem State.noteTrunc_outCap (s : State) (b : Bool) : (s.noteTrunc b).outCap = s.outCap := rfl
@[simp] theorem State.noteTrunc_rd (s : State) (b : Bool) : (s.noteTrunc b).rd = s.rd := rfl
@[simp] theorem State.noteTrunc_wr (s : State) (b : Bool) : (s.noteTrunc b).wr = s.wr := rfl
@[simp] theorem State.noteTrunc_trunc (s : State) (b : Bool) : (s.noteTrunc b).trunc = (s.trunc || b) := rfl
@[simp] theorem State.noteTrunc_clamp (s : State) (b : Bool) : (s.noteTrunc b).clamp = s.clamp := rfl
@[simp] theorem State.noteTrunc_ph (s : State) (b : Bool) : (s.noteTrunc b).ph = s.ph := rfl
@[simp] theorem State.noteTrunc_cnt (s : State) (b : Bool) : (s.noteTrunc b).cnt = s.cnt := rfl
@[simp] theorem State.noteTrunc_val (s : State) (b : Bool) : (s.noteTrunc b).val = s.val := rfl
@[simp] theorem State.noteTrunc_input (s : State) (b : Bool) : (s.noteTrunc b).input = s.input := rfl
@[simp] theorem State.noteTrunc_output (s : State) (b : Bool) : (s.noteTrunc b).output = s.output := rfl
@[simp] theorem State.noteTrunc_impl (s : State) (b : Bool) : (s.noteTrunc b).impl = s.impl := rfl
@[simp] theorem State.noteTrunc_schedule (s : State) (b : Bool) : (s.noteTrunc b).schedule = s.schedule := rfl
@[simp] theorem State.noteTrunc_replies (s : State) (b : Bool) : (s.noteTrunc b).replies = s.replies := rfl
@[simp] theorem State.noteTrunc_fresh (s : State) (b : Bool) : (s.noteTrunc b).fresh = s.fresh := rfl
@[simp] theorem State.noteTrunc_doneRead (s : State) (b : Bool) : (s.noteTrunc b).doneRead = s.doneRead := rfl

@[simp] theorem State.noteClamp_st (s : State) (b : Bool) : (s.noteClamp b).st = s.st := rfl
@[simp] theorem State.noteClamp_inLen (s : State) (b : Bool) : (s.noteClamp b).inLen = s.inLen := rfl
@[simp] theorem State.noteClamp_outCap (s : State) (b : Bool) : (s.noteClamp b).outCap = s.outCap := rfl
@[simp] theorem State.noteClamp_rd (s : State) (b : Bool) : (s.noteClamp b).rd = s.rd := rfl
@[simp] theorem State.noteClamp_wr (s : State) (b : Bool) : (s.noteClamp b).wr = s.wr := rfl
@[simp] theorem State.noteClamp_trunc (s : State) (b : Bool) : (s.noteClamp b).trunc = s.trunc := rfl
@[simp] theorem State.noteClamp_clamp (s : State) (b : Bool) : (s.noteClamp b).clamp = (s.clamp || b) := rfl
@[simp] theorem State.noteClamp_ph (s : State) (b : Bool) : (s.noteClamp b).ph = s.ph := rfl
@[simp] theorem State.noteClamp_cnt (s : State) (b : Bool) : (s.noteClamp b).cnt = s.cnt := rfl
@[simp] theorem State.noteClamp_val (s : State) (b : Bool) : (s.noteClamp b).val = s.val := rfl
@[simp] theorem State.noteClamp_input (s : State) (b : Bool) : (s.noteClamp b).input = s.input := rfl
@[simp] theorem State.noteClamp_output (s : State) (b : Bool) : (s.noteClamp b).output = s.output := rfl
@[simp] theorem State.noteClamp_impl (s : State) (b : Bool) : (s.noteClamp b).impl = s.impl := rfl
@[simp] theorem State.noteClamp_schedule (s : State) (b : Bool) : (s.noteClamp b).schedule = s.schedule := rfl
@[simp] theorem State.noteClamp_replies (s : State) (b : Bool) : (s.noteClamp b).replies = s.replies := rfl
@[simp] theorem State.noteClamp_fresh (s : State) (b : Bool) : (s.noteClamp b).fresh = s.fresh := rfl
@[simp] theorem State.noteClamp_doneRead (s : State) (b : Bool) : (s.noteClamp b).doneRead = s.doneRead := rfl

@[simp] theorem State.noteLit_st (s : State) (len : Nat) : (s.noteLit len).st = s.st := rfl
@[simp] theorem State.noteLit_inLen (s : State) (len : Nat) : (s.noteLit len).inLen = s.inLen := rfl
@[simp] theorem State.noteLit_outCap (s : State) (len : Nat) : (s.noteLit len).outCap = s.outCap := rfl
@[simp] theorem State.noteLit_rd (s : State) (len : Nat) : (s.noteLit len).rd = s.rd := rfl
@[simp] theorem State.noteLit_wr (s : State) (len : Nat) : (s.noteLit len).wr = s.wr := rfl
@[simp] theorem State.noteLit_trunc (s : State) (len : Nat) : (s.noteLit len).trunc = (s.trunc || decide (s.inRem < len)) := rfl
@[simp] theorem State.noteLit_clamp (s : State) (len : Nat) : (s.noteLit len).clamp = (s.clamp || decide (s.outRem < len)) := rfl
@[simp] theorem State.noteLit_ph (s : State) (len : Nat) : (s.noteLit len).ph = s.ph := rfl
@[simp] theorem State.noteLit_cnt (s : State) (len : Nat) : (s.noteLit len).cnt = s.cnt := rfl
@[simp] theorem State.noteLit_val (s : State) (len : Nat) : (s.noteLit len).val = s.val := rfl
@[simp] theorem State.noteLit_input (s : State) (len : Nat) : (s.noteLit len).input = s.input := rfl
@[simp] theorem State.noteLit_output (s : State) (len : Nat) : (s.noteLit len).output = s.output := rfl
@[simp] theorem State.noteLit_impl (s : State) (len : Nat) : (s.noteLit len).impl = s.impl := rfl
@[simp] theorem State.noteLit_schedule (s : State) (len : Nat) : (s.noteLit len).schedule = s.schedule := rfl
@[simp] theorem State.noteLit_replies (s : State) (len : Nat) : (s.noteLit len).replies = s.replies := rfl
@[simp] theorem State.noteLit_fresh (s : State) (len : Nat) : (s.noteLit len).fresh = s.fresh := rfl
@[simp] theorem State.noteLit_doneRead (s : State) (len : Nat) : (s.noteLit len).doneRead = s.doneRead := rfl

@[simp] theorem State.noteRep_st (s : State) (len : Nat) : (s.noteRep len).st = s.st := rfl
@[simp] theorem State.noteRep_inLen (s : State) (len : Nat) : (s.noteRep len).inLen = s.inLen := rfl
@[simp] theorem State.noteRep_outCap (s : State) (len : Nat) : (s.noteRep len).outCap = s.outCap := rfl
@[simp] theorem State.noteRep_rd (s : State) (len : Nat) : (s.noteRep len).rd = s.rd := rfl
@[simp] theorem State.noteRep_wr (s : State) (len : Nat) : (s.noteRep len).wr = s.wr := rfl
@[simp] theorem State.noteRep_trunc (s : State) (len : Nat) : (s.noteRep len).trunc = s.trunc := rfl
@[simp] theorem State.noteRep_clamp (s : State) (len : Nat) : (s.noteRep len).clamp = (s.clamp || decide (s.outRem < len)) := rfl
@[simp] theorem State.noteRep_ph (s : State) (len : Nat) : (s.noteRep len).ph = s.ph := rfl
@[simp] theorem State.noteRep_cnt (s : State) (len : Nat) : (s.noteRep len).cnt = s.cnt := rfl
@[simp] theorem State.noteRep_val (s : State) (len : Nat) : (s.noteRep len).val = s.val := rfl
@[simp] theorem State.noteRep_input (s : State) (len : Nat) : (s.noteRep len).input = s.input := rfl
@[simp] theorem State.noteRep_output (s : State) (len : Nat) : (s.noteRep len).output = s.output := rfl
@[simp] theorem State.noteRep_impl (s : State) (len : Nat) : (s.noteRep len).impl = s.impl := rfl
@[simp] theorem State.noteRep_schedule (s : State) (len : Nat) : (s.noteRep len).schedule = s.schedule := rfl
@[simp] theorem State.noteRep_replies (s : State) (len : Nat) : (s.noteRep len).replies = s.replies := rfl
@[simp] theorem State.noteRep_fresh (s : State) (len : Nat) : (s.noteRep len).fresh = s.fresh := rfl
@[simp] theorem State.noteRep_doneRead (s : State) (len : Nat) : (s.noteRep len).doneRead = s.doneRead := rfl

@[simp] theorem State.countDown_st (s : State) : (s.countDown).st = s.st := rfl
@[simp] theorem State.countDown_inLen (s : State) : (s.countDown).inLen = s.inLen := rfl
@[simp] theorem State.countDown_outCap (s : State) : (s.countDown).outCap = s.outCap := rfl
@[simp] theorem State.countDown_rd (s : State) : (s.countDown).rd = s.rd := rfl
@[simp] theorem State.countDown_wr (s : State) : (s.countDown).wr = s.wr := rfl
@[simp] theorem State.countDown_trunc (s : State) : (s.countDown).trunc = s.trunc := rfl
@[simp] theorem State.countDown_clamp (s : State) : (s.countDown).clamp = s.clamp := rfl
@[simp] theorem State.countDown_ph (s : State) : (s.countDown).ph = (if s.cnt - 1 = 0 then .ctrl else s.ph) := rfl
@[simp] theorem State.countDown_cnt (s : State) : (s.countDown).cnt = s.cnt - 1 := rfl
@[simp] theorem State.countDown_val (s : State) : (s.countDown).val = s.val := rfl
@[simp] theorem State.countDown_input (s : State) : (s.countDown).input = s.input := rfl
@[simp] theorem State.countDown_output (s : State) : (s.countDown).output = s.output := rfl
@[simp] theorem State.countDown_impl (s : State) : (s.countDown).impl = s.impl := rfl
@[simp] theorem State.countDown_schedule (s : State) : (s.countDown).schedule = s.schedule := rfl
@[simp] theorem State.countDown_replies (s : State) : (s.countDown).replies = s.replies := rfl
@[simp] theorem State.countDown_fresh (s : State) : (s.countDown).fresh = s.fresh := rfl
@[simp] theorem State.countDown_doneRead (s : State) : (s.countDown).doneRead = s.doneRead := rfl

@[simp] theorem State.abandonOutput_st (s : State) : (s.abandonOutput).st = s.st := rfl
@[simp] theorem State.abandonOutput_inLen (s : State) : (s.abandonOutput).inLen = s.inLen := rfl
@[simp] theorem State.abandonOutput_outCap (s : State) : (s.abandonOutput).outCap = s.outCap := rfl
@[simp] theorem State.abandonOutput_rd (s : State) : (s.abandonOutput).rd = s.rd := rfl
@[simp] theorem State.abandonOutput_wr (s : State) : (s.abandonOutput).wr = s.wr := rfl
@[simp] theorem State.abandonOutput_trunc (s : State) : (s.abandonOutput).trunc = s.trunc := rfl
@[simp] theorem State.abandonOutput_clamp (s : State) : (s.abandonOutput).clamp = s.clamp := rfl
@[simp] theorem State.abandonOutput_ph (s : State) : (s.abandonOutput).ph = s.ph := rfl
@[simp] theorem State.abandonOutput_cnt (s : State) : (s.abandonOutput).cnt = s.cnt := rfl
@[simp] theorem State.abandonOutput_val (s : State) : (s.abandonOutput).val = s.val := rfl
@[simp] theorem State.abandonOutput_input (s : State) : (s.abandonOutput).input = s.input := rfl
@[simp] theorem State.abandonOutput_output (s : State) : (s.abandonOutput).output = { s.output with cells := Mem.scramble s.fresh s.outCap s.output.cells } := rfl
@[simp] theorem State.abandonOutput_impl (s : State) : (s.abandonOutput).impl = s.impl := rfl
@[simp] theorem State.abandonOutput_schedule (s : State) : (s.abandonOutput).schedule = s.schedule := rfl
@[simp] theorem State.abandonOutput_replies (s : State) : (s.abandonOutput).replies = s.replies := rfl
@[simp] theorem State.abandonOutput_fresh (s : State) : (s.abandonOutput).fresh = s.fresh + 1 := rfl
@[simp] theorem State.abandonOutput_doneRead (s : State) : (s.abandonOutput).doneRead = s.doneRead := rfl

@[simp] theorem State.hostReads_st (s : State) (r : Nat) : (s.hostReads r).st = s.st := rfl
@[simp] theorem State.hostReads_inLen (s : State) (r : Nat) : (s.hostReads r).inLen = s.inLen := rfl
@[simp] theorem State.hostReads_outCap (s : State) (r : Nat) : (s.hostReads r).outCap = s.outCap := rfl
@[simp] theorem State.hostReads_rd (s : State) (r : Nat) : (s.hostReads r).rd = s.rd := rfl
@[simp] theorem State.hostReads_wr (s : State) (r : Nat) : (s.hostReads r).wr = s.wr := rfl
@[simp] theorem State.hostReads_trunc (s : State) (r : Nat) : (s.hostReads r).trunc = s.trunc := rfl
@[simp] theorem State.hostReads_clamp (s : State) (r : Nat) : (s.hostReads r).clamp = s.clamp := rfl
@[simp] theorem State.hostReads_ph (s : State) (r : Nat) : (s.hostReads r).ph = s.ph := rfl
@[simp] theorem State.hostReads_cnt (s : State) (r : Nat) : (s.hostReads r).cnt = s.cnt := rfl
@[simp] theorem State.hostReads_val (s : State) (r : Nat) : (s.hostReads r).val = s.val := rfl
@[simp] theorem State.hostReads_input (s : State) (r : Nat) : (s.hostReads r).input = s.input := rfl
@[simp] theorem State.hostReads_output (s : State) (r : Nat) : (s.hostReads r).output = s.output := rfl
@[simp] theorem State.hostReads_impl (s : State) (r : Nat) : (s.hostReads r).impl = s.impl := rfl
@[simp] theorem State.hostReads_schedule (s : State) (r : Nat) : (s.hostReads r).schedule = s.schedule := rfl
@[simp] theorem State.hostReads_replies (s : State) (r : Nat) : (s.hostReads r).replies = .register r (s.readRegister r) :: s.replies := rfl
@[simp] theorem State.hostReads_fresh (s : State) (r : Nat) : (s.hostReads r).fresh = s.fresh := rfl
@[simp] theorem State.hostReads_doneRead (s : State) (r : Nat) : (s.hostReads r).doneRead = (s.doneRead || Reply.saysDone (.register r (s.readRegister r))) := rfl

@[simp] theorem State.drawByte_fst (s : State) (j : Nat) : (s.drawByte j).1 = Config.freeByte s.fresh j := rfl
@[simp] theorem State.drawByte_st (s : State) (j : Nat) : (s.drawByte j).2.st = s.st := rfl
@[simp] theorem State.drawByte_inLen (s : State) (j : Nat) : (s.drawByte j).2.inLen = s.inLen := rfl
@[simp] theorem State.drawByte_outCap (s : State) (j : Nat) : (s.drawByte j).2.outCap = s.outCap := rfl
@[simp] theorem State.drawByte_rd (s : State) (j : Nat) : (s.drawByte j).2.rd = s.rd := rfl
@[simp] theorem State.drawByte_wr (s : State) (j : Nat) : (s.drawByte j).2.wr = s.wr := rfl
@[simp] theorem State.drawByte_trunc (s : State) (j : Nat) : (s.drawByte j).2.trunc = s.trunc := rfl
@[simp] theorem State.drawByte_clamp (s : State) (j : Nat) : (s.drawByte j).2.clamp = s.clamp := rfl
@[simp] theorem State.drawByte_ph (s : State) (j : Nat) : (s.drawByte j).2.ph = s.ph := rfl
@[simp] theorem State.drawByte_cnt (s : State) (j : Nat) : (s.drawByte j).2.cnt = s.cnt := rfl
@[simp] theorem State.drawByte_val (s : State) (j : Nat) : (s.drawByte j).2.val = s.val := rfl
@[simp] theorem State.drawByte_input (s : State) (j : Nat) : (s.drawByte j).2.input = s.input := rfl
@[simp] theorem State.drawByte_output (s : State) (j : Nat) : (s.drawByte j).2.output = s.output := rfl
@[simp] theorem State.drawByte_impl (s : State) (j : Nat) : (s.drawByte j).2.impl = s.impl := rfl
@[simp] theorem State.drawByte_schedule (s : State) (j : Nat) : (s.drawByte j).2.schedule = s.schedule := rfl
@[simp] theorem State.drawByte_replies (s : State) (j : Nat) : (s.drawByte j).2.replies = s.replies := rfl
@[simp] theorem State.drawByte_fresh (s : State) (j : Nat) : (s.drawByte j).2.fresh = s.fresh + 1 := rfl
@[simp] theorem State.drawByte_doneRead (s : State) (j : Nat) : (s.drawByte j).2.doneRead = s.doneRead := rfl

@[simp] theorem State.noteTrunc_inRem (s : State) (b : Bool) : (s.noteTrunc b).inRem = s.inRem := rfl
@[simp] theorem State.noteTrunc_outRem (s : State) (b : Bool) : (s.noteTrunc b).outRem = s.outRem := rfl
@[simp] theorem State.noteClamp_inRem (s : State) (b : Bool) : (s.noteClamp b).inRem = s.inRem := rfl
@[simp] theorem State.noteClamp_outRem (s : State) (b : Bool) : (s.noteClamp b).outRem = s.outRem := rfl
@[simp] theorem State.noteLit_inRem (s : State) (len : Nat) : (s.noteLit len).inRem = s.inRem := rfl
@[simp] theorem State.noteLit_outRem (s : State) (len : Nat) : (s.noteLit len).outRem = s.outRem := rfl
@[simp] theorem State.noteRep_inRem (s : State) (len : Nat) : (s.noteRep len).inRem = s.inRem := rfl
@[simp] theorem State.noteRep_outRem (s : State) (len : Nat) : (s.noteRep len).outRem = s.outRem := rfl

@[simp] theorem State.resetBlock_st (s : State) : s.resetBlock.st = .idle := by
  unfold State.resetBlock; cases s.st <;> rfl

/-- Every register of R13 and R86 after RESET (R109). -/
theorem State.resetBlock_registers (s : State) :
    s.resetBlock.inLen = 0 ∧ s.resetBlock.outCap = 0 ∧ s.resetBlock.rd = 0 ∧ s.resetBlock.wr = 0 ∧
      s.resetBlock.trunc = false ∧ s.resetBlock.clamp = false ∧ s.resetBlock.ph = .ctrl ∧
      s.resetBlock.cnt = 0 ∧ s.resetBlock.val = 0#8 := by
  unfold State.resetBlock; cases s.st <;> simp

/-- RESET leaves the IN buffer, the host's lists and the implementation alone (R109). -/
theorem State.resetBlock_frame (s : State) :
    s.resetBlock.input = s.input ∧ s.resetBlock.impl = s.impl ∧ s.resetBlock.schedule = s.schedule ∧
      s.resetBlock.replies = s.replies ∧ s.resetBlock.output.base = s.output.base := by
  unfold State.resetBlock; cases s.st <;> simp

end Sys2Proof.Machine
end

