-- ==== Sys2Proof/Laws/Ops.lean ====
section
/-! SUPPORT. One lemma for each shared operation, saying once everything it can do: the memory primitives, the copy
and fill loops, the fetch, the schedule. -/

namespace Sys2Proof.Machine

/-! ### The memory primitives -/

theorem memRead_eq_ok {s : State} {i : Nat} {b : Byte} :
    memRead s i = .ok b ↔ Mem.read s.input.cells i = some b := by
  unfold memRead; cases h : Mem.read s.input.cells i <;> simp

theorem memRead_eq_error {s : State} {i : Nat} {f : Fault} :
    memRead s i = .error f ↔ Mem.read s.input.cells i = none ∧ f = .noSuchInputByte i := by
  unfold memRead; cases h : Mem.read s.input.cells i <;> simp [eq_comm (a := f)]

theorem memWrite_eq_ok {s t : State} {j : Nat} {v : Byte} :
    memWrite s j v = .ok t ↔ (Mem.read s.output.cells j).isSome ∧
      t = { s with output := { s.output with cells := Mem.write s.output.cells j v } } := by
  unfold memWrite; cases h : Mem.read s.output.cells j <;> simp [eq_comm (a := t)]

theorem memWrite_eq_error {s : State} {j : Nat} {v : Byte} {f : Fault} :
    memWrite s j v = .error f ↔ Mem.read s.output.cells j = none ∧ f = .noSuchOutputByte j := by
  unfold memWrite; cases h : Mem.read s.output.cells j <;> simp [eq_comm (a := f)]

/-! ### Runs of writes -/

/-- `t` is `s` but for the OUT bytes at `dst .. dst+n-1`, which hold what `f` says for each position. -/
structure Wrote (s t : State) (dst n : Nat) (f : Nat → Option Byte) : Prop where
  /-- Nothing but OUT changes. -/
  frame : t = { s with output := t.output }
  base  : t.output.base = s.output.base
  keys  : t.output.cells.map Prod.fst = s.output.cells.map Prod.fst
  wrote : ∀ k, k < n → Mem.read t.output.cells (dst + k) = f k
  kept  : ∀ a, a < dst ∨ dst + n ≤ a → Mem.read t.output.cells a = Mem.read s.output.cells a

theorem Wrote.nothing (s : State) (dst : Nat) (f : Nat → Option Byte) : Wrote s s dst 0 f :=
  ⟨rfl, rfl, rfl, fun k hk => absurd hk (Nat.not_lt_zero k), fun _ _ => rfl⟩

/-- One write followed by a run of writes at the next offset. -/
theorem Wrote.cons {s u t : State} {dst n : Nat} {b : Byte} {f : Nat → Option Byte}
    (hw : memWrite s dst b = .ok u) (h : Wrote u t (dst + 1) n fun k => f (k + 1)) (hf : f 0 = some b) :
    Wrote s t dst (n + 1) f := by
  obtain ⟨hsome, rfl⟩ := memWrite_eq_ok.mp hw
  refine ⟨by rw [h.frame], by rw [h.base], by rw [h.keys]; simp, fun k hk => ?_, fun a ha => ?_⟩
  · cases k with
    | zero =>
      rw [Nat.add_zero, h.kept dst (by omega), hf]
      exact Mem.read_write_same b hsome
    | succ k => simpa [Nat.add_assoc, Nat.add_comm 1] using h.wrote k (by omega)
  · rw [h.kept a (by omega)]
    exact Mem.read_write_other b (by omega)

/-! A run of writes leaves every other field alone. -/

theorem Wrote.st_eq {s t : State} {dst n : Nat} {f : Nat → Option Byte} (h : Wrote s t dst n f) :
    t.st = s.st := by rw [h.frame]

theorem Wrote.inLen_eq {s t : State} {dst n : Nat} {f : Nat → Option Byte} (h : Wrote s t dst n f) :
    t.inLen = s.inLen := by rw [h.frame]

theorem Wrote.outCap_eq {s t : State} {dst n : Nat} {f : Nat → Option Byte} (h : Wrote s t dst n f) :
    t.outCap = s.outCap := by rw [h.frame]

theorem Wrote.rd_eq {s t : State} {dst n : Nat} {f : Nat → Option Byte} (h : Wrote s t dst n f) :
    t.rd = s.rd := by rw [h.frame]

theorem Wrote.wr_eq {s t : State} {dst n : Nat} {f : Nat → Option Byte} (h : Wrote s t dst n f) :
    t.wr = s.wr := by rw [h.frame]

theorem Wrote.trunc_eq {s t : State} {dst n : Nat} {f : Nat → Option Byte} (h : Wrote s t dst n f) :
    t.trunc = s.trunc := by rw [h.frame]

theorem Wrote.clamp_eq {s t : State} {dst n : Nat} {f : Nat → Option Byte} (h : Wrote s t dst n f) :
    t.clamp = s.clamp := by rw [h.frame]

theorem Wrote.ph_eq {s t : State} {dst n : Nat} {f : Nat → Option Byte} (h : Wrote s t dst n f) :
    t.ph = s.ph := by rw [h.frame]

theorem Wrote.cnt_eq {s t : State} {dst n : Nat} {f : Nat → Option Byte} (h : Wrote s t dst n f) :
    t.cnt = s.cnt := by rw [h.frame]

theorem Wrote.val_eq {s t : State} {dst n : Nat} {f : Nat → Option Byte} (h : Wrote s t dst n f) :
    t.val = s.val := by rw [h.frame]

theorem Wrote.input_eq {s t : State} {dst n : Nat} {f : Nat → Option Byte} (h : Wrote s t dst n f) :
    t.input = s.input := by rw [h.frame]

theorem Wrote.impl_eq {s t : State} {dst n : Nat} {f : Nat → Option Byte} (h : Wrote s t dst n f) :
    t.impl = s.impl := by rw [h.frame]

theorem Wrote.schedule_eq {s t : State} {dst n : Nat} {f : Nat → Option Byte} (h : Wrote s t dst n f) :
    t.schedule = s.schedule := by rw [h.frame]

theorem Wrote.replies_eq {s t : State} {dst n : Nat} {f : Nat → Option Byte} (h : Wrote s t dst n f) :
    t.replies = s.replies := by rw [h.frame]

theorem Wrote.fresh_eq {s t : State} {dst n : Nat} {f : Nat → Option Byte} (h : Wrote s t dst n f) :
    t.fresh = s.fresh := by rw [h.frame]

theorem Wrote.doneRead_eq {s t : State} {dst n : Nat} {f : Nat → Option Byte} (h : Wrote s t dst n f) :
    t.doneRead = s.doneRead := by rw [h.frame]

theorem Wrote.full {s t : State} {dst n : Nat} {f : Nat → Option Byte} (h : Wrote s t dst n f) :
    Mem.full t.output.cells ↔ Mem.full s.output.cells := Mem.full_congr h.keys

theorem Wrote.size {s t : State} {dst n : Nat} {f : Nat → Option Byte} (h : Wrote s t dst n f) :
    t.output.size = s.output.size := by
  rw [Buffer.size, Buffer.size, ← List.length_map (f := Prod.fst), h.keys, List.length_map]

theorem Wrote.isSome {s t : State} {dst n : Nat} {f : Nat → Option Byte} (h : Wrote s t dst n f) (a : Nat) :
    (Mem.read t.output.cells a).isSome = (Mem.read s.output.cells a).isSome := by
  rw [Bool.eq_iff_iff, Mem.isSome_read_iff, Mem.isSome_read_iff, h.keys]

/-! ### The copy loop of LIT (R65) -/

/-- What the copy loop does when it ends well. -/
theorem copyRun_ok {n src dst : Nat} {s t : State} (h : copyRun n src dst s = .ok t) :
    Wrote s t dst n fun k => Mem.read s.input.cells (src + k) := by
  induction n generalizing src dst s with
  | zero =>
    obtain rfl : s = t := Except.ok.inj h
    exact Wrote.nothing s dst _
  | succ n ih =>
    simp only [copyRun] at h
    split at h
    · cases h
    · rename_i b hb
      split at h
      · cases h
      · rename_i u hu
        refine Wrote.cons hu ?_ (by simpa using memRead_eq_ok.mp hb)
        have := ih h
        obtain ⟨-, rfl⟩ := memWrite_eq_ok.mp hu
        simpa [Nat.add_assoc, Nat.add_comm 1] using this

/-- The copy loop ends well when every byte it needs exists. -/
theorem copyRun_completes {n src dst : Nat} {s : State}
    (hi : ∀ k, k < n → (Mem.read s.input.cells (src + k)).isSome)
    (ho : ∀ k, k < n → (Mem.read s.output.cells (dst + k)).isSome) :
    ∃ t, copyRun n src dst s = .ok t := by
  induction n generalizing src dst s with
  | zero => exact ⟨s, rfl⟩
  | succ n ih =>
    obtain ⟨b, hb⟩ := Option.isSome_iff_exists.mp (hi 0 (by omega))
    have hw : memWrite s dst b = .ok { s with output := { s.output with cells := Mem.write s.output.cells dst b } } :=
      memWrite_eq_ok.mpr ⟨by simpa using ho 0 (by omega), rfl⟩
    obtain ⟨t, ht⟩ := ih (src := src + 1) (dst := dst + 1)
      (s := { s with output := { s.output with cells := Mem.write s.output.cells dst b } })
      (fun k hk => by simpa [Nat.add_assoc, Nat.add_comm 1] using hi (k + 1) (by omega))
      (fun k hk => by simpa [Nat.add_assoc, Nat.add_comm 1] using ho (k + 1) (by omega))
    exact ⟨t, by simp only [copyRun, memRead_eq_ok.mpr (by simpa using hb), hw]; exact ht⟩

/-! ### The fill loop of REP (R66) -/

/-- What the fill loop does when it ends well. -/
theorem fillRun_ok {n dst : Nat} {v : Byte} {s t : State} (h : fillRun n dst v s = .ok t) :
    Wrote s t dst n fun _ => some v := by
  induction n generalizing dst s with
  | zero =>
    obtain rfl : s = t := Except.ok.inj h
    exact Wrote.nothing s dst _
  | succ n ih =>
    simp only [fillRun] at h
    split at h
    · cases h
    · rename_i u hu
      exact Wrote.cons hu (ih h) rfl

/-- The fill loop ends well when every byte it writes exists. -/
theorem fillRun_completes {n dst : Nat} {v : Byte} {s : State}
    (ho : ∀ k, k < n → (Mem.read s.output.cells (dst + k)).isSome) :
    ∃ t, fillRun n dst v s = .ok t := by
  induction n generalizing dst s with
  | zero => exact ⟨s, rfl⟩
  | succ n ih =>
    have hw : memWrite s dst v = .ok { s with output := { s.output with cells := Mem.write s.output.cells dst v } } :=
      memWrite_eq_ok.mpr ⟨by simpa using ho 0 (by omega), rfl⟩
    obtain ⟨t, ht⟩ := ih (dst := dst + 1)
      (s := { s with output := { s.output with cells := Mem.write s.output.cells dst v } })
      (fun k hk => by simpa [Nat.add_assoc, Nat.add_comm 1] using ho (k + 1) (by omega))
    exact ⟨t, by simp only [fillRun, hw]; exact ht⟩

/-! ### What the loops do not read -/

/-- The copy loop carries along every part of the state that it neither reads nor writes: a change `g` that leaves
OUT alone and, while IN is what it is in `s`, leaves the bytes the loop reads alone. -/
theorem copyRun_frame (g : State → State) (hout : ∀ u, (g u).output = u.output)
    (hw : ∀ u o, g { u with output := o } = { g u with output := o })
    (n src dst : Nat) (s : State)
    (hin : ∀ u, u.input = s.input → ∀ a, src ≤ a → a < src + n →
      Mem.read (g u).input.cells a = Mem.read u.input.cells a) :
    copyRun n src dst (g s) = (copyRun n src dst s).map g := by
  induction n generalizing src dst s with
  | zero => rfl
  | succ n ih =>
    have hr : memRead (g s) src = memRead s src := by
      simp only [memRead, hin s rfl src (Nat.le_refl _) (by omega)]
    simp only [copyRun, hr]
    cases hb : memRead s src with
    | error f => rfl
    | ok b =>
      simp only []
      have hm : memWrite (g s) dst b = (memWrite s dst b).map g := by
        simp only [memWrite, hout]
        cases Mem.read s.output.cells dst <;> simp [Except.map, ← hw]
      rw [hm]
      cases hu : memWrite s dst b with
      | error f => rfl
      | ok u =>
        obtain ⟨-, rfl⟩ := memWrite_eq_ok.mp hu
        exact ih (src + 1) (dst + 1) _ fun w hw' a h1 h2 => hin w hw' a (by omega) (by omega)

/-- The fill loop carries along every part of the state that it does not write. -/
theorem fillRun_frame (g : State → State)
    (hout : ∀ s, (g s).output = s.output)
    (hw : ∀ s o, g { s with output := o } = { g s with output := o })
    (n dst : Nat) (v : Byte) (s : State) :
    fillRun n dst v (g s) = (fillRun n dst v s).map g := by
  induction n generalizing dst s with
  | zero => rfl
  | succ n ih =>
    have hm : memWrite (g s) dst v = (memWrite s dst v).map g := by
      simp only [memWrite, hout]
      cases Mem.read s.output.cells dst <;> simp [Except.map, ← hw]
    simp only [fillRun, hm]
    cases hu : memWrite s dst v with
    | error f => rfl
    | ok u => exact ih (dst + 1) u

/-- A write over other contents of OUT ends as well (R37). -/
theorem memWrite_other_output {s t : State} {j : Nat} {v : Byte} {o : Buffer}
    (hk : o.cells.map Prod.fst = s.output.cells.map Prod.fst) (h : memWrite s j v = .ok t) :
    ∃ o', memWrite { s with output := o } j v = .ok { t with output := o' } ∧
      o'.cells.map Prod.fst = t.output.cells.map Prod.fst := by
  obtain ⟨hs, rfl⟩ := memWrite_eq_ok.mp h
  refine ⟨_, memWrite_eq_ok.mpr ⟨?_, rfl⟩, by simpa using hk⟩
  rw [Mem.isSome_read_iff] at hs ⊢
  rwa [hk]

/-- The copy loop over other contents of OUT ends as well, and the same but for OUT (R37). What it stores is
`copyRun_ok`'s. -/
theorem copyRun_other_output {n src dst : Nat} {s t : State} {o : Buffer}
    (hk : o.cells.map Prod.fst = s.output.cells.map Prod.fst) (h : copyRun n src dst s = .ok t) :
    ∃ o', copyRun n src dst { s with output := o } = .ok { t with output := o' } := by
  induction n generalizing src dst s o with
  | zero => cases h; exact ⟨o, rfl⟩
  | succ n ih =>
    simp only [copyRun] at h
    split at h
    · cases h
    · rename_i b hb
      split at h
      · cases h
      · rename_i u hu
        obtain ⟨p, hp, hkp⟩ := memWrite_other_output hk hu
        obtain ⟨o', ho'⟩ := ih hkp h
        have hb' : memRead { s with output := o } src = .ok b := hb
        exact ⟨o', by simp only [copyRun, hb', hp]; exact ho'⟩

/-- The fill loop over other contents of OUT ends as well, and the same but for OUT (R37). What it stores is
`fillRun_ok`'s. -/
theorem fillRun_other_output {n dst : Nat} {v : Byte} {s t : State} {o : Buffer}
    (hk : o.cells.map Prod.fst = s.output.cells.map Prod.fst) (h : fillRun n dst v s = .ok t) :
    ∃ o', fillRun n dst v { s with output := o } = .ok { t with output := o' } := by
  induction n generalizing dst s o with
  | zero => cases h; exact ⟨o, rfl⟩
  | succ n ih =>
    simp only [fillRun] at h
    split at h
    · cases h
    · rename_i u hu
      obtain ⟨p, hp, hkp⟩ := memWrite_other_output hk hu
      obtain ⟨o', ho'⟩ := ih hkp h
      exact ⟨o', by simp only [fillRun, hp]; exact ho'⟩

/-! ### Fetch and the value byte -/

/-- FETCH ends well exactly when there is a byte at `rd`; it decodes that byte and advances `rd` by 1 (R64). -/
theorem fetch_eq_ok {s t : State} {i : Instr} :
    fetch s = .ok (i, t) ↔ ∃ c, Mem.read s.input.cells s.rd = some c ∧ i = decodeByte c ∧ t = s.advance 1 0 := by
  unfold fetch memRead
  cases h : Mem.read s.input.cells s.rd <;> simp [eq_comm (a := i), eq_comm (a := t)]

theorem fetch_eq_error {s : State} {f : Fault} :
    fetch s = .error f ↔ Mem.read s.input.cells s.rd = none ∧ f = .noSuchInputByte s.rd := by
  unfold fetch memRead
  cases h : Mem.read s.input.cells s.rd <;> simp [eq_comm (a := f)]

theorem takeValue_eq_ok {s t : State} {v : Byte} :
    takeValue s = .ok (v, t) ↔ Mem.read s.input.cells s.rd = some v ∧ t = s.advance 1 0 := by
  unfold takeValue memRead
  cases h : Mem.read s.input.cells s.rd <;> simp [eq_comm (a := t)]

theorem takeValue_eq_error {s : State} {f : Fault} :
    takeValue s = .error f ↔ Mem.read s.input.cells s.rd = none ∧ f = .noSuchInputByte s.rd := by
  unfold takeValue memRead
  cases h : Mem.read s.input.cells s.rd <;> simp [eq_comm (a := f)]

/-! ### Bounds -/

theorem atEnd_eq_true {s : State} : s.atEnd = true ↔ s.wr = s.outCap ∨ s.rd = s.inLen := by
  simp [State.atEnd]

theorem atEnd_eq_false {s : State} : s.atEnd = false ↔ s.wr ≠ s.outCap ∧ s.rd ≠ s.inLen := by
  simp [State.atEnd]

/-- A LIT's clamped count stays within its declared length and both bounds (R65). -/
theorem litCount_le (s : State) (len : Nat) :
    litCount s len ≤ len ∧ litCount s len ≤ s.inLen - s.rd ∧ litCount s len ≤ s.outCap - s.wr := by
  simp only [litCount, State.inRem, State.outRem]; omega

/-- A REP's clamped count stays within its declared length and the output's bound (R66). -/
theorem repCount_le (s : State) (len : Nat) : repCount s len ≤ len ∧ repCount s len ≤ s.outCap - s.wr := by
  simp only [repCount, State.outRem]; omega

/-! ### The host's view -/

/-- STATUS[1:0] is the code of `st` (R26). -/
theorem statusWord_mod (s : State) : s.statusWord.toNat % 4 = (stateCode s.st).toNat := by
  unfold State.statusWord
  generalize stateCode s.st = c
  generalize s.short = x; generalize s.clamp = y; generalize s.trunc = z
  revert c x y z; decide

/-- A STATUS read says DONE exactly in DONE; no other register does (R26, R47). -/
@[simp] theorem saysDone_readRegister (s : State) (r : Nat) :
    Reply.saysDone (.register r (s.readRegister r)) = (decide (r = 0) && decide (s.st = .done)) := by
  cases r with
  | zero =>
    simp only [Reply.saysDone, State.readRegister, statusWord_mod]
    cases s.st <;> rfl
  | succ r => simp [Reply.saysDone]

theorem rangesMeet_one (a n x : Nat) : rangesMeet a n x 1 = true ↔ a ≤ x ∧ x < a + n := by
  simp [rangesMeet]; omega

/-- A range holds the address of its own offset `i` exactly when it is longer. -/
@[simp] theorem rangesMeet_self (a n i : Nat) : rangesMeet a n (a + i) 1 = decide (i < n) := by
  simp [rangesMeet]; omega

theorem overlaps_eq_true {a b : Buffer} {n k : Nat} : a.overlaps n b k = true ↔
    0 < n ∧ 0 < k ∧ a.base < b.base + k ∧ b.base < a.base + n := by
  simp [Buffer.overlaps, rangesMeet, and_assoc]

@[simp] theorem resultPending_of_scan {s : State} (h : s.st = .scan) : s.resultPending = true := by
  simp [State.resultPending, h]

theorem resultPending_eq_true {s : State} :
    s.resultPending = true ↔ s.st = .scan ∨ (s.st = .done ∧ s.doneRead = false) := by
  unfold State.resultPending; cases s.st <;> simp

theorem resultPending_eq_false {s : State} :
    s.resultPending = false ↔ s.st = .idle ∨ (s.st = .done ∧ s.doneRead = true) := by
  unfold State.resultPending; cases s.st <;> simp

/-! ### The schedule -/

/-- Taking a turn changes only the schedule. -/
theorem nextTurn_snd (s : State) : s.nextTurn.2 = { s with schedule := s.nextTurn.2.schedule } := by
  unfold State.nextTurn; split <;> rfl

theorem nextTurn_of_nil {s : State} (h : s.schedule = []) : s.nextTurn = (.decoder, s) := by
  simp [State.nextTurn, h]

theorem nextTurn_of_cons {s : State} {t : Turn} {rest : List Turn} (h : s.schedule = t :: rest) :
    s.nextTurn = (t, { s with schedule := rest }) := by
  simp [State.nextTurn, h]

end Sys2Proof.Machine
end

