-- ==== Sys2Proof/Laws/Decoder.lean ====
section
/-! SUPPORT. What the meanings, the engine's phases and the decoder's turn can do, said once. -/

namespace Sys2Proof.Machine

/-! ### The meanings -/

@[simp] theorem exec_nop (s : State) : exec .nop s = .next s := rfl

/-- What a LIT does when it ends well (R65). -/
theorem execLit_next {m : RunField} {s t : State} (h : exec (.lit m) s = .next t) :
    ∃ u, Wrote (s.noteLit (litLength m)) u s.wr (litCount s (litLength m))
        (fun k => Mem.read s.input.cells (s.rd + k)) ∧
      t = u.advance (litCount s (litLength m)) (litCount s (litLength m)) := by
  simp only [exec, execLit] at h
  split at h
  · rename_i u hu
    exact ⟨u, by simpa using copyRun_ok hu, by simpa [eq_comm] using h⟩
  · cases h

/-- A LIT ends well when the buffers hold the job (R65, R83). -/
theorem execLit_completes {s : State} (h : Covers s) (m : RunField) : ∃ t, exec (.lit m) s = .next t := by
  have hc := litCount_le s (litLength m)
  obtain ⟨u, hu⟩ := copyRun_completes (n := litCount s (litLength m)) (src := s.rd) (dst := s.wr)
    (s := s.noteLit (litLength m))
    (fun k hk => by simpa using h.input (s.rd + k) (by omega))
    (fun k hk => by simpa using h.output (s.wr + k) (by omega))
  exact ⟨_, by simp only [exec, execLit, hu]; rfl⟩

/-- What a REP does when it ends well (R66). -/
theorem execRep_next {m : RunField} {s t : State} (h : exec (.rep m) s = .next t) :
    m ≠ 0#7 ∧
      ((s.rd = s.inLen ∧ t = s.noteTrunc true) ∨
        (s.rd ≠ s.inLen ∧ ∃ v u, Mem.read s.input.cells s.rd = some v ∧
          Wrote ((s.advance 1 0).noteRep (repLength m)) u s.wr (repCount s (repLength m)) (fun _ => some v) ∧
          t = u.advance 0 (repCount s (repLength m)))) := by
  simp only [exec, execRep] at h
  split at h
  · cases h
  · rename_i hm
    refine ⟨hm, ?_⟩
    split at h
    · rename_i hv
      exact .inl ⟨by simpa [valueMissing] using hv, by simpa [eq_comm] using h⟩
    · rename_i hv
      refine .inr ⟨by simpa [valueMissing] using hv, ?_⟩
      split at h
      · rename_i v u hu
        obtain ⟨hr, rfl⟩ := takeValue_eq_ok.mp hu
        simp only [repEmit] at h
        split at h
        · rename_i w hw
          cases h
          exact ⟨v, w, hr, fillRun_ok hw, rfl⟩
        · cases h
      · cases h

/-- A REP ends well when the buffers hold the job and `rd` is not past the input (R66, R83). -/
theorem execRep_completes {s : State} (h : Covers s) (hrd : s.rd ≤ s.inLen) {m : RunField} (hm : m ≠ 0#7) :
    ∃ t, exec (.rep m) s = .next t := by
  simp only [exec, execRep, if_neg hm]
  by_cases hv : s.rd = s.inLen
  · exact ⟨s.noteTrunc true, by simp [valueMissing, hv]⟩
  · obtain ⟨v, hr⟩ := Option.isSome_iff_exists.mp (h.input s.rd (by omega))
    have hc := repCount_le s (repLength m)
    obtain ⟨u, hu⟩ := fillRun_completes (n := repCount s (repLength m)) (dst := s.wr) (v := v)
      (s := (s.advance 1 0).noteRep (repLength m))
      (fun k hk => by simpa using h.output (s.wr + k) (by omega))
    refine ⟨u.advance 0 (repCount s (repLength m)), ?_⟩
    have hu' : fillRun (repCount (s.advance 1 0) (repLength m)) (s.advance 1 0).wr v
        ((s.advance 1 0).noteRep (repLength m)) = .ok u := hu
    have ht : takeValue s = .ok (v, s.advance 1 0) := takeValue_eq_ok.mpr ⟨hr, rfl⟩
    simp only [valueMissing, hv, decide_false, Bool.false_eq_true, if_false, ht, repEmit, hu']
    rfl

/-- A control unit's meaning refuses nothing. -/
theorem exec_not_refused {i : Instr} (hi : i.wellFormed = true) (s : State) (r : Refusal) :
    exec i s ≠ .refused r := by
  cases i with
  | nop => simp
  | lit m => simp only [exec, execLit]; split <;> simp
  | rep m =>
    have hm : m ≠ 0#7 := by simpa [Instr.wellFormed] using hi
    simp only [exec, execRep, if_neg hm, repEmit]
    split
    · simp
    · split
      · split <;> simp
      · simp

/-! ### The decoder's turn -/

/-- Everything the decoder's turn can do, for both implementations: one constructor per kind of step. -/
inductive DecoderMove (s : State) : State → Prop where
  /-- IDLE or DONE: no step (R68). -/
  | quiet (h : s.st ≠ .scan) : DecoderMove s s
  /-- END (R63, R87). -/
  | finish (hs : s.st = .scan) (hb : s.impl = .unitLevel ∨ s.ph = .ctrl) (he : s.wr = s.outCap ∨ s.rd = s.inLen) :
      DecoderMove s s.finish
  /-- NOP (R67). -/
  | nop (hs : s.st = .scan) (hi : s.impl = .unitLevel) (he : s.wr ≠ s.outCap ∧ s.rd ≠ s.inLen) (c : Byte)
      (hc : Mem.read s.input.cells s.rd = some c) (hd : decodeByte c = .nop) : DecoderMove s (s.advance 1 0)
  /-- LIT (R65). -/
  | lit (hs : s.st = .scan) (hi : s.impl = .unitLevel) (he : s.wr ≠ s.outCap ∧ s.rd ≠ s.inLen) (c : Byte)
      (hc : Mem.read s.input.cells s.rd = some c) (m : RunField) (hd : decodeByte c = .lit m) (u : State)
      (hw : Wrote ((s.advance 1 0).noteLit (litLength m)) u s.wr (litCount (s.advance 1 0) (litLength m))
        fun k => Mem.read s.input.cells (s.rd + 1 + k)) :
      DecoderMove s (u.advance (litCount (s.advance 1 0) (litLength m)) (litCount (s.advance 1 0) (litLength m)))
  /-- REP with no value byte (R66). -/
  | repMissing (hs : s.st = .scan) (hi : s.impl = .unitLevel) (he : s.wr ≠ s.outCap ∧ s.rd ≠ s.inLen) (c : Byte)
      (hc : Mem.read s.input.cells s.rd = some c) (m : RunField) (hd : decodeByte c = .rep m)
      (hv : s.rd + 1 = s.inLen) : DecoderMove s ((s.advance 1 0).noteTrunc true)
  /-- REP with its value byte (R66). -/
  | rep (hs : s.st = .scan) (hi : s.impl = .unitLevel) (he : s.wr ≠ s.outCap ∧ s.rd ≠ s.inLen) (c : Byte)
      (hc : Mem.read s.input.cells s.rd = some c) (m : RunField) (hd : decodeByte c = .rep m)
      (hv : s.rd + 1 ≠ s.inLen) (v : Byte) (hr : Mem.read s.input.cells (s.rd + 1) = some v) (u : State)
      (hw : Wrote ((s.advance 2 0).noteRep (repLength m)) u s.wr (repCount s (repLength m)) fun _ => some v) :
      DecoderMove s (u.advance 0 (repCount s (repLength m)))
  /-- The engine's CTRL step with a unit to fetch (R87). -/
  | engineFetch (hs : s.st = .scan) (hi : s.impl = .byteLevel) (hp : s.ph = .ctrl)
      (he : s.wr ≠ s.outCap ∧ s.rd ≠ s.inLen) (c : Byte) (hc : Mem.read s.input.cells s.rd = some c) :
      DecoderMove s (engineDemux (decodeByte c) (s.advance 1 0))
  /-- The engine's LITC step (R88). -/
  | engineCopy (hs : s.st = .scan) (hi : s.impl = .byteLevel) (hp : s.ph = .litc) (hn : s.cnt ≠ 0) (u : State)
      (hw : Wrote s u s.wr 1 fun _ => Mem.read s.input.cells s.rd) :
      DecoderMove s (u.advance 1 1).countDown
  /-- The engine's RFETCH step with no value byte (R89). -/
  | engineMissing (hs : s.st = .scan) (hi : s.impl = .byteLevel) (hp : s.ph = .rfetch) (hv : s.rd = s.inLen) :
      DecoderMove s { s.noteTrunc true with cnt := 0, ph := .ctrl }
  /-- The engine's RFETCH step with the value byte (R89). -/
  | engineValue (hs : s.st = .scan) (hi : s.impl = .byteLevel) (hp : s.ph = .rfetch) (hv : s.rd ≠ s.inLen)
      (v : Byte) (hr : Mem.read s.input.cells s.rd = some v) :
      DecoderMove s
        { (s.advance 1 0).noteRep s.cnt with val := v, cnt := repCount s s.cnt, ph := .remit }
  /-- The engine's REMIT step (R90). -/
  | engineEmit (hs : s.st = .scan) (hi : s.impl = .byteLevel) (hp : s.ph = .remit) (hn : s.cnt ≠ 0) (u : State)
      (hw : Wrote s u s.wr 1 fun _ => some s.val) : DecoderMove s (u.advance 0 1).countDown

/-- One write is a run of one. -/
theorem wrote_one {s u : State} {j : Nat} {b : Byte} {f : Nat → Option Byte} (h : memWrite s j b = .ok u)
    (hf : f 0 = some b) : Wrote s u j 1 f := Wrote.cons h (Wrote.nothing u (j + 1) _) hf

theorem unitStep_next {s t : State} (hs : s.st = .scan) (hi : s.impl = .unitLevel) (h : unitStep s = .next t) :
    DecoderMove s t := by
  unfold unitStep at h
  split at h
  · rename_i he
    cases h
    exact .finish hs (.inl hi) (atEnd_eq_true.mp he)
  · rename_i he
    have he := atEnd_eq_false.mp (by simpa using he)
    split at h
    · rename_i i u hf
      obtain ⟨c, hc, hd, rfl⟩ := fetch_eq_ok.mp hf
      cases i with
      | nop => cases h; exact .nop hs hi he c hc hd.symm
      | lit m =>
        obtain ⟨u, hw, rfl⟩ := execLit_next h
        exact .lit hs hi he c hc m hd.symm u (by simpa using hw)
      | rep m =>
        obtain ⟨-, ⟨hv, rfl⟩ | ⟨hv, v, u, hr, hw, rfl⟩⟩ := execRep_next h
        · exact .repMissing hs hi he c hc m hd.symm (by simpa using hv)
        · exact .rep hs hi he c hc m hd.symm (by simpa using hv) v (by simpa using hr) u hw
    · cases h

theorem engineStep_next {s t : State} (hs : s.st = .scan) (hi : s.impl = .byteLevel) (h : engineStep s = .next t) :
    DecoderMove s t := by
  unfold engineStep at h
  split at h <;> rename_i hp
  · unfold engineCtrl at h
    split at h
    · rename_i he
      cases h
      exact .finish hs (.inr hp) (atEnd_eq_true.mp he)
    · rename_i he
      have he := atEnd_eq_false.mp (by simpa using he)
      split at h
      · rename_i i u hf
        obtain ⟨c, hc, rfl, rfl⟩ := fetch_eq_ok.mp hf
        cases h
        exact .engineFetch hs hi hp he c hc
      · cases h
  · unfold engineLitc at h
    split at h
    · cases h
    · rename_i hn
      split at h
      · cases h
      · rename_i b hb
        split at h
        · cases h
        · rename_i u hu
          cases h
          exact .engineCopy hs hi hp hn u (wrote_one hu (memRead_eq_ok.mp hb))
  · unfold engineRfetch at h
    split at h
    · rename_i hv
      cases h
      exact .engineMissing hs hi hp (by simpa [valueMissing] using hv)
    · rename_i hv
      split at h
      · cases h
      · rename_i v u hu
        obtain ⟨hr, rfl⟩ := takeValue_eq_ok.mp hu
        cases h
        exact .engineValue hs hi hp (by simpa [valueMissing] using hv) v hr
  · unfold engineRemit at h
    split at h
    · cases h
    · rename_i hn
      split at h
      · cases h
      · rename_i u hu
        cases h
        exact .engineEmit hs hi hp hn u (wrote_one hu rfl)

/-- Everything the decoder's turn can do when it answers a next state. -/
theorem decoderTurn_next {s t : State} (h : decoderTurn s = .next t) : DecoderMove s t := by
  unfold decoderTurn at h
  split at h
  · rename_i hs; cases h; exact .quiet (by simp [hs])
  · rename_i hs; cases h; exact .quiet (by simp [hs])
  · rename_i hs
    split at h
    · rename_i hi; exact unitStep_next hs hi h
    · rename_i hi; exact engineStep_next hs hi h

/-- No decoder turn is refused. -/
theorem decoderTurn_not_refused (s : State) (r : Refusal) : decoderTurn s ≠ .refused r := by
  unfold decoderTurn
  split
  · simp
  · simp
  · split
    · unfold unitStep
      split
      · simp
      · split
        · rename_i i u hf
          obtain ⟨c, -, rfl, -⟩ := fetch_eq_ok.mp hf
          exact exec_not_refused (decodeByte_wellFormed c) u r
        · simp
    · unfold engineStep engineCtrl engineLitc engineRfetch engineRemit
      repeat' split
      all_goals simp

/-! ### The step -/

/-- A step is the decoder's turn or the host's. -/
theorem step_next {s t : State} (h : step s = .next t) :
    (s.nextTurn.1 = .decoder ∧ decoderTurn s.nextTurn.2 = .next t) ∨
      (∃ a, s.nextTurn.1 = .host a ∧ hostTurn a s.nextTurn.2 = .next t) := by
  unfold step at h
  split at h <;> rename_i u hu
  · exact .inl (by rw [hu]; exact ⟨rfl, h⟩)
  · rename_i a; exact .inr ⟨a, by rw [hu]; exact ⟨rfl, h⟩⟩

@[simp] theorem runSteps_zero (s : State) : runSteps 0 s = .next s := rfl

theorem runSteps_succ_of_next {s t : State} (k : Nat) (h : step s = .next t) :
    runSteps (k + 1) s = runSteps k t := by
  simp [runSteps, h]

/-- Runs compose. -/
theorem runSteps_add {s t : State} {j : Nat} (k : Nat) (h : runSteps j s = .next t) :
    runSteps (j + k) s = runSteps k t := by
  induction j generalizing s with
  | zero => cases h; simp
  | succ j ih =>
    cases hs : step s with
    | next u =>
      rw [runSteps_succ_of_next j hs] at h
      rw [Nat.add_right_comm, runSteps_succ_of_next _ hs, ih h]
    | fault f => simp [runSteps, hs] at h
    | refused r => simp [runSteps, hs] at h

/-- With nothing on the schedule, a step is the decoder's turn. -/
theorem step_of_nil {s : State} (h : s.schedule = []) : step s = decoderTurn s := by
  simp [step, nextTurn_of_nil h]

end Sys2Proof.Machine
end

