-- ==== Sys2Proof/Laws/PerInstr.lean ====
section
/-! SUPPORT. Statements made of every instruction as syntax, one lemma per constructor. -/

namespace Sys2Proof.Laws

/-- A control unit is 1 to 129 bytes long, and its length follows from its control byte alone (R7, R58). -/
def UnitLengthBounds.Statement (i : Instr) : Prop :=
  i.wellFormed = true → 1 ≤ unitLength i ∧ unitLength i ≤ 129

theorem UnitLengthBounds.nop : UnitLengthBounds.Statement .nop := fun _ => by simp [unitLength]

theorem UnitLengthBounds.lit (m : RunField) : UnitLengthBounds.Statement (.lit m) := fun _ => by
  have := litLength_bounds m
  simp only [unitLength]; omega

theorem UnitLengthBounds.rep (m : RunField) : UnitLengthBounds.Statement (.rep m) := fun _ => by simp [unitLength]

end Sys2Proof.Laws
end

