-- ==== Sys2Proof/Laws/Safety.lean ====
section
/-! SUPPORT. Small lemmas of the predicates in Safety.lean, and what the host's actions can do, said once. -/

namespace Sys2Proof.Machine

/-- A running job of a sound state has its buffers (R83). -/
theorem Inv.covers {s : State} (h : Inv s) (hs : s.st = .scan) : Covers s := by
  constructor
  · intro i hi
    have := h.inputFits hs
    exact (Mem.isSome_read_of_full h.inputFull i).mpr (by simp only [Buffer.size] at this; omega)
  · intro j hj
    have := h.outputFits hs
    exact (Mem.isSome_read_of_full h.outputFull j).mpr (by simp only [Buffer.size] at this; omega)

/-- Outside the byte-level engine the phase stays at the unit boundary (R24). -/
theorem Inv.ph_of_unitLevel {s : State} (h : Inv s) (hi : s.impl = .unitLevel) : s.ph = .ctrl := by
  by_contra hp
  have := (h.boundary hp).2
  rw [hi] at this; cases this

/-- The invariant says nothing of the schedule, the answers and the free values. -/
theorem Inv.of_lists {s : State} (h : Inv s) (sch : List Turn) (r : List Reply) (n : Nat) :
    Inv { s with schedule := sch, replies := r, fresh := n } :=
  ⟨h.inputFull, h.outputFull, h.rdBound, h.wrBound, h.inputFits, h.outputFits, h.buffersApart, h.engine, h.boundary,
    h.idleZero, h.doneAtBound, h.doneReadInDone⟩

/-- Taking the turn off the schedule keeps the invariant. -/
theorem Inv.nextTurn {s : State} (h : Inv s) : Inv s.nextTurn.2 := by
  rw [nextTurn_snd]; exact h.of_lists _ _ _

/-- Everything a host action can do: one constructor per way in which it completes. -/
inductive HostMove (s : State) : HostAction → State → Prop where
  /-- RESET (R109). -/
  | reset : HostMove s .reset s.resetBlock
  /-- START in BUSY (R75). -/
  | startIgnored (l c : Nat) (hs : s.st = .scan) : HostMove s (.start l c) s
  /-- START in IDLE or DONE (R74). -/
  | startTaken (l c : Nat) (hs : s.st ≠ .scan) (hl : launchRefusal s l c = none) :
      HostMove s (.start l c) (s.startJob l c)
  /-- READ (R76). -/
  | read (r : Nat) : HostMove s (.read r) (s.hostReads r)
  /-- The host supplies the buffers (R112). -/
  | place (ib : Nat) (is : List Byte) (ob : Nat) (os : List Byte) (hp : s.resultPending = false) :
      HostMove s (.place ib is ob os) { s with input := Buffer.ofBytes ib is, output := Buffer.ofBytes ob os }
  /-- A write of IN (R82). -/
  | writeIn (i : Nat) (b : Byte) (hi : s.ownsInputAt (s.input.base + i) 1 = false)
      (ho : s.ownsOutputAt (s.input.base + i) 1 = false) (hr : (Mem.read s.input.cells i).isSome) :
      HostMove s (.writeIn i b) { s with input := { s.input with cells := Mem.write s.input.cells i b } }
  /-- A read of IN (R84). -/
  | readIn (i : Nat) (b : Byte) (hi : s.ownsInputAt (s.input.base + i) 1 = false)
      (ho : s.ownsOutputAt (s.input.base + i) 1 = false) (hr : Mem.read s.input.cells i = some b) :
      HostMove s (.readIn i) (s.answer (.inByte i b))
  /-- A read of IN that falls on an output which is not the host's yet (log 10). -/
  | readInFree (i : Nat) (hi : s.ownsInputAt (s.input.base + i) 1 = false)
      (ho : s.ownsOutputAt (s.input.base + i) 1 = true) (hr : (Mem.read s.input.cells i).isSome) :
      HostMove s (.readIn i) ((s.drawByte (s.input.base + i - s.output.base)).2.answer
        (.inByte i (s.drawByte (s.input.base + i - s.output.base)).1))
  /-- A write of OUT (R80). -/
  | writeOut (j : Nat) (b : Byte) (ho : s.ownsOutputAt (s.output.base + j) 1 = false)
      (hi : s.ownsInputAt (s.output.base + j) 1 = false) (hr : (Mem.read s.output.cells j).isSome) :
      HostMove s (.writeOut j b) { s with output := { s.output with cells := Mem.write s.output.cells j b } }
  /-- A read of OUT that is the host's (R47 item 3). -/
  | readOut (j : Nat) (b : Byte) (hp : s.resultPending = false) (hr : Mem.read s.output.cells j = some b) :
      HostMove s (.readOut j) (s.answer (.outByte j b))
  /-- A read of OUT that is not the host's yet (R47 item 4). -/
  | readOutFree (j : Nat) (hp : s.resultPending = true) (hr : (Mem.read s.output.cells j).isSome) :
      HostMove s (.readOut j) ((s.drawByte j).2.answer (.outByte j (s.drawByte j).1))
  /-- The result (R77). -/
  | collect (bytes : List Byte) (hs : s.st = .done) (hd : s.doneRead = true)
      (hb : Mem.readRun s.output.cells s.wr 0 = some bytes) :
      HostMove s .collect (s.answer (.result bytes s.rd s.trunc s.clamp s.short))

/-- A host action completes exactly in the ways of `HostMove`. -/
theorem hostTurn_eq_next {a : HostAction} {s t : State} : hostTurn a s = .next t ↔ HostMove s a t := by
  constructor
  · intro h
    cases a with
    | reset => cases h; exact .reset
    | start l c =>
      simp only [hostTurn, hostStart] at h
      split at h
      · cases h; exact .startIgnored l c (by assumption)
      all_goals
        split at h
        · cases h
        · cases h; exact .startTaken l c (by simp_all) (by assumption)
    | read r => cases h; exact .read r
    | place ib is ob os =>
      simp only [hostTurn, hostPlace] at h
      split at h
      · cases h
      · cases h; exact .place ib is ob os (by simp_all)
    | writeIn i b =>
      simp only [hostTurn, hostWriteIn] at h
      split at h
      · cases h
      split at h
      · cases h
      split at h
      · cases h; exact .writeIn i b (by simp_all) (by simp_all) (by simp_all)
      · cases h
    | readIn i =>
      simp only [hostTurn, hostReadIn] at h
      split at h
      · cases h
      split at h
      · cases h
      split at h
      · cases h; exact .readInFree i (by simp_all) (by assumption) (by simp_all)
      · cases h; exact .readIn i _ (by simp_all) (by simp_all) (by assumption)
    | writeOut j b =>
      simp only [hostTurn, hostWriteOut] at h
      split at h
      · cases h
      split at h
      · cases h
      split at h
      · cases h; exact .writeOut j b (by simp_all) (by simp_all) (by simp_all)
      · cases h
    | readOut j =>
      simp only [hostTurn, hostReadOut] at h
      split at h
      · cases h
      split at h
      · cases h; exact .readOutFree j (by assumption) (by simp_all)
      · cases h; exact .readOut j _ (by simp_all) (by assumption)
    | collect =>
      simp only [hostTurn, hostCollect] at h
      split at h
      · cases h
      · cases h
      rename_i hs
      split at h
      · cases h
      rename_i hp
      split at h
      · cases h; exact .collect _ hs (by simpa [State.resultPending, hs] using hp) (by assumption)
      · cases h
  · intro h
    cases h with
    | reset => rfl
    | startIgnored l c hs => simp [hostTurn, hostStart, hs]
    | startTaken l c hs hl => simp only [hostTurn, hostStart]; split <;> simp_all
    | read r => rfl
    | place ib is ob os hp => simp [hostTurn, hostPlace, hp]
    | writeIn i b hi ho hr =>
      obtain ⟨v, hv⟩ := Option.isSome_iff_exists.mp hr
      simp [hostTurn, hostWriteIn, hi, ho, hv]
    | readIn i b hi ho hr => simp [hostTurn, hostReadIn, hi, ho, hr]
    | readInFree i hi ho hr =>
      obtain ⟨v, hv⟩ := Option.isSome_iff_exists.mp hr
      simp [hostTurn, hostReadIn, hi, ho, hv]
    | writeOut j b ho hi hr =>
      obtain ⟨v, hv⟩ := Option.isSome_iff_exists.mp hr
      simp [hostTurn, hostWriteOut, hi, ho, hv]
    | readOut j b hp hr => simp [hostTurn, hostReadOut, hp, hr]
    | readOutFree j hp hr =>
      obtain ⟨v, hv⟩ := Option.isSome_iff_exists.mp hr
      simp [hostTurn, hostReadOut, hp, hv]
    | collect bytes hs hd hb => simp [hostTurn, hostCollect, hs, hd, hb, State.resultPending]

/-- A START is ignored in BUSY; otherwise it takes effect or is refused (R74, R75). -/
theorem hostStart_next {s t : State} {l c : Nat} (h : hostTurn (.start l c) s = .next t) :
    (s.st = .scan ∧ t = s) ∨ (s.st ≠ .scan ∧ launchRefusal s l c = none ∧ t = s.startJob l c) := by
  cases hostTurn_eq_next.mp h with
  | startIgnored _ _ hs => exact .inl ⟨hs, rfl⟩
  | startTaken _ _ hs hl => exact .inr ⟨hs, hl, rfl⟩

/-- The launch conditions of R112, as what a START that is not refused meets. -/
theorem launchRefusal_eq_none {s : State} {l c : Nat} : launchRefusal s l c = none ↔
    l ≤ s.input.size ∧ c ≤ s.output.size ∧ s.input.overlaps l s.output c = false ∧
      l < 2 ^ Config.inLenW ∧ c < 2 ^ Config.outCapW := by
  unfold launchRefusal
  split
  · simp only [reduceCtorEq, false_iff]; omega
  split
  · simp only [reduceCtorEq, false_iff]; omega
  split
  · simp_all
  split
  · simp only [reduceCtorEq, false_iff]; omega
  · simp_all

/-- Every host action but RESET and START leaves every register alone (R27). It may change the buffers, and the
host's own fields. -/
theorem hostTurn_plain {a : HostAction} {s t : State} (h1 : a ≠ .reset) (h2 : ∀ l c, a ≠ .start l c)
    (h : hostTurn a s = .next t) :
    t = { s with
      input := t.input, output := t.output, replies := t.replies, fresh := t.fresh, doneRead := t.doneRead } := by
  cases hostTurn_eq_next.mp h with
  | reset => exact absurd rfl h1
  | startIgnored l c => exact absurd rfl (h2 l c)
  | startTaken l c => exact absurd rfl (h2 l c)
  | _ => rfl

/-- A host action other than RESET that completes while BUSY leaves the job as it is: every register, where the
buffers are and which offsets they have, the job's input and the job's range of OUT (R73, R75, R99). -/
theorem hostTurn_busy {a : HostAction} {s t : State} (hs : s.st = .scan) (h1 : a ≠ .reset)
    (h : hostTurn a s = .next t) :
    SameJob s t ∧ t.schedule = s.schedule ∧ t.doneRead = s.doneRead ∧
      t.input.base = s.input.base ∧ t.output.base = s.output.base ∧
      t.input.cells.map Prod.fst = s.input.cells.map Prod.fst ∧
      t.output.cells.map Prod.fst = s.output.cells.map Prod.fst := by
  have same : SameJob s s := ⟨rfl, rfl, rfl, rfl, rfl, rfl, rfl, rfl, rfl, rfl, rfl, fun _ _ => rfl, fun _ _ => rfl⟩
  cases hostTurn_eq_next.mp h with
  | reset => exact absurd rfl h1
  | startTaken l c hn => exact absurd hs hn
  | startIgnored l c => exact ⟨same, rfl, rfl, rfl, rfl, rfl, rfl⟩
  | read r => exact ⟨{ same with }, rfl, by simp [hs], rfl, rfl, rfl, rfl⟩
  | place _ _ _ _ hp => simp [resultPending_of_scan hs] at hp
  | writeIn i b hi =>
    have hi : s.inLen ≤ i := by simpa [State.ownsInputAt, hs] using hi
    exact ⟨{ same with input := fun a ha => (Mem.read_write_other b (by omega)).symm }, rfl, rfl, rfl, rfl,
      Mem.keys_write _ _ _, rfl⟩
  | writeOut j b ho =>
    have ho : s.outCap ≤ j := by simpa [State.ownsOutputAt, resultPending_of_scan hs] using ho
    exact ⟨{ same with output := fun a ha => (Mem.read_write_other b (by omega)).symm }, rfl, rfl, rfl, rfl, rfl,
      Mem.keys_write _ _ _⟩
  | collect _ hd => rw [hs] at hd; cases hd
  | _ => exact ⟨{ same with }, rfl, rfl, rfl, rfl, rfl, rfl⟩

/-- Both widths are at least 1 (R6), so 0 and 1 fit every length register. -/
theorem one_lt_width : 1 < 2 ^ Config.inLenW ∧ 1 < 2 ^ Config.outCapW :=
  ⟨Nat.one_lt_two_pow (Nat.succ_ne_zero _), Nat.one_lt_two_pow (Nat.succ_ne_zero _)⟩

end Sys2Proof.Machine
end

