-- ==== Sys2Proof/Tests/Slice0.lean ====
section
/-! SUPPORT. Tests. The expected results are those of 95_test_vectors.md and the examples of 40_control_units.md; the
words are written out from the encodings of 30_encoding.md. Every `witness_` theorem shows that the hypotheses of
the obligation of that name can be met together. -/

namespace Sys2Proof.Tests

open Sys2Proof.Machine

/-! ### Well-formedness: what each check refuses -/

theorem test_wf_rep_zero_refused : (Instr.rep 0#7).wellFormed = false := by decide
theorem test_wf_item_lit_empty_refused : (Item.lit []).wellFormed = false := by decide
theorem test_wf_item_lit_129_refused : (Item.lit (List.replicate 129 0#8)).wellFormed = false := by
  simp [Item.wellFormed]
theorem test_wf_item_rep_one_refused : (Item.rep 1 0x41#8).wellFormed = false := by decide
theorem test_wf_item_rep_129_refused : (Item.rep 129 0x41#8).wellFormed = false := by decide

/-! ### Decoding: words written out bit by bit from R53 to R55 -/

theorem test_decode_lit : decodeByte 0b00000010#8 = .lit 0b0000010#7 ∧ litLength 0b0000010#7 = 3 := by decide
theorem test_decode_rep : decodeByte 0b11111110#8 = .rep 0b1111110#7 ∧ repLength 0b1111110#7 = 3 := by decide
theorem test_decode_nop : decodeByte 0b10000000#8 = .nop := by decide
theorem test_decode_nothing : decode [] = .error .noControlByte := rfl
theorem test_decodeTableWord : decodeTableWord 8 0x80 = some .nop ∧ decodeTableWord 8 0x7F = some (.lit 127#7) ∧
    decodeTableWord 8 0x81 = some (.rep 1#7) := by decide

/-! ### Assembler: program P2 of 95_test_vectors.md, with its truncated last unit -/

theorem test_disassemble_p2 :
    disassemble [0x80#8, 0x80#8, 0x01#8, 0x41#8, 0x42#8, 0xFD#8, 0x43#8, 0x80#8, 0x02#8, 0x44#8] =
      [.nop, .nop, .lit [0x41#8, 0x42#8], .rep 4 0x43#8, .nop, .raw [0x02#8, 0x44#8]] := by decide

/-! ### A running job on a small input -/

/-- The next state of an outcome, where it is one. -/
def after : Result → Option State
  | .next t => some t
  | .fault _ => none
  | .refused _ => none

/-- A job that has just been started on `bytes`, with room for `cap` bytes of OUT, which holds 0xEE throughout. -/
def job (bytes : List Byte) (cap : Nat) : State :=
  { State.reset with
    st := .scan, inLen := bytes.length, outCap := cap
    input := Buffer.ofBytes 0 bytes
    output := Buffer.ofBytes bytes.length (List.replicate cap 0xEE#8) }

/-- The same job on the byte-level engine. -/
def engineJob (bytes : List Byte) (cap : Nat) : State := { job bytes cap with impl := .byteLevel }

/-- What a test looks at: the cursors, the flags, and the first `n` bytes of OUT. -/
def view (n : Nat) (r : Result) : Option (Nat × Nat × Bool × Bool × List Byte) :=
  (after r).map fun t => (t.rd, t.wr, t.trunc, t.clamp, (Mem.readRun t.output.cells n 0).getD [])

theorem job_inv (bytes : List Byte) (cap : Nat) : Inv (job bytes cap) := by
  constructor <;> first | exact Mem.full_ofBytes _ | simp [job, State.reset, Buffer.ofBytes, Buffer.size, Buffer.overlaps, rangesMeet, EngineAgrees]

theorem engineJob_inv (bytes : List Byte) (cap : Nat) : Inv (engineJob bytes cap) := by
  constructor <;> first | exact Mem.full_ofBytes _ | simp [engineJob, job, State.reset, Buffer.ofBytes, Buffer.size, Buffer.overlaps, rangesMeet, EngineAgrees]

theorem job_started (bytes : List Byte) (cap : Nat) : JobStarted (job bytes cap) :=
  ⟨job_inv bytes cap, rfl, rfl, rfl, rfl, rfl, rfl⟩

theorem engineJob_started (bytes : List Byte) (cap : Nat) : JobStarted (engineJob bytes cap) :=
  ⟨engineJob_inv bytes cap, rfl, rfl, rfl, rfl, rfl, rfl⟩

theorem job_covers (bytes : List Byte) (cap : Nat) : Covers (job bytes cap) := (job_inv bytes cap).covers rfl

/-! ### One unit-level step -/

/-- W1: a LIT that fits. -/
theorem test_lit_fits : view 3 (step (job [0x02#8, 0xAA#8, 0xBB#8, 0xCC#8] 3)) =
    some (4, 3, false, false, [0xAA#8, 0xBB#8, 0xCC#8]) := by decide

/-- V-LIT-6: one unit cut by both bounds sets both flags. -/
theorem test_lit_both_bounds : view 2 (step (job [0x05#8, 0x41#8, 0x42#8, 0x43#8] 2)) =
    some (3, 2, true, true, [0x41#8, 0x42#8]) := by decide

/-- W5: a REP cut by the output. -/
theorem test_rep_clamped : view 5 (step (job [0xF0#8, 0x11#8] 5)) =
    some (2, 5, false, true, [0x11#8, 0x11#8, 0x11#8, 0x11#8, 0x11#8]) := by decide

/-- V-REP-3: a REP with no value byte sets TRUNC, does not evaluate CLAMP and writes nothing. -/
theorem test_rep_value_missing : view 1 (step (job [0xFF#8] 1)) = some (1, 0, true, false, [0xEE#8]) := by decide

/-- W3, first step: a NOP only consumes its control byte. -/
theorem test_nop : view 1 (step (job [0x80#8, 0x01#8, 0x05#8] 1)) =
    some (1, 0, false, false, [0xEE#8]) := by decide

/-- V-END-2: with no capacity the first step is END, and nothing is read. -/
theorem test_end : (after (step (job [0x00#8, 0x41#8, 0x42#8] 0))).map (fun t => (t.st, t.rd)) = some (.done, 0) := by
  decide

/-! ### One byte-level step (95_test_vectors.md section 2.7) -/

theorem test_engine_ctrl : (after (step (engineJob [0xFE#8, 0x7F#8] 3))).map (fun t => (t.ph, t.rd, t.cnt)) =
    some (.rfetch, 1, 3) := by decide

theorem test_engine_rfetch :
    (after (step { engineJob [0xFE#8, 0x7F#8] 3 with ph := .rfetch, rd := 1, cnt := 3 })).map
      (fun t => (t.ph, t.rd, t.cnt, t.val)) = some (.remit, 2, 3, 0x7F#8) := by decide

theorem test_engine_remit :
    (after (step { engineJob [0xFE#8, 0x7F#8] 3 with ph := .remit, rd := 2, wr := 2, cnt := 1, val := 0x7F#8 })).map
      (fun t => (t.ph, t.wr, t.cnt, Mem.read t.output.cells 2)) = some (.ctrl, 3, 0, some 0x7F#8) := by decide

theorem test_engine_litc :
    (after (step { engineJob [0x80#8, 0x01#8, 0x05#8] 1 with ph := .litc, rd := 2, cnt := 1 })).map
      (fun t => (t.ph, t.rd, t.wr, Mem.read t.output.cells 0)) = some (.ctrl, 3, 1, some 0x05#8) := by decide

/-! ### Host actions (95_test_vectors.md section 2.6 and section 4) -/

/-- A machine in IDLE with three bytes of IN and room for three bytes of OUT. -/
def idle (inBase outBase : Nat) : State :=
  { State.reset with
    input := Buffer.ofBytes inBase [0x80#8, 0x00#8, 0x41#8]
    output := Buffer.ofBytes outBase (List.replicate 3 0xEE#8) }

theorem idle_inv (inBase outBase : Nat) : Inv (idle inBase outBase) := by
  constructor <;> first | exact Mem.full_ofBytes _ | simp [idle, State.reset, Buffer.ofBytes, EngineAgrees]

/-- V-HOST-3: STATUS of a DONE job. V-HOST-9: another register number. -/
theorem test_read : let s := { job [0xFE#8, 0x7F#8] 3 with st := .done, rd := 2, wr := 3 }
    s.readRegister 0 = 0x02 ∧ s.readRegister 4 = 3 ∧ s.readRegister 5 = 0 := by decide

/-- W4's STATUS: DONE, TRUNC, SHORT. -/
theorem test_status_short : { job [0x05#8] 6 with st := .done, rd := 1, trunc := true }.readRegister 0 = 0x16 := by
  decide

/-- V-HOST-8: a RESET in BUSY leaves STATUS and the counts 0. -/
theorem test_reset_in_busy :
    (after (hostTurn .reset { job [0xFE#8, 0x7F#8] 3 with rd := 2, wr := 3, clamp := true })).map
      (fun t => (t.readRegister 0, t.readRegister 3, t.readRegister 4)) = some (0, 0, 0) := by decide

/-- X-1 of 95_test_vectors.md. -/
theorem test_launch_too_long : launchRefusal (idle 0 16) 4 3 = some .inputLongerThanBuffer := by decide

/-- X-2: the ranges overlap by one byte. -/
theorem test_launch_overlap : launchRefusal (idle 0x100 0x102) 3 1 = some .buffersOverlap := by decide

/-- X-3: the host writes IN[0] while BUSY. -/
theorem test_write_in_busy : after (hostTurn (.writeIn 0 0#8) (job [0x80#8] 1)) = none := by decide

/-- A job that reads one byte and may write one, in buffers that overlap outside the job's ranges: OUT offset 2 is IN
offset 0. -/
def crossed : State := { idle 2 0 with st := .scan, inLen := 1, outCap := 1 }

/-- R82: the job's input may not be written through OUT either. -/
theorem test_write_through_out :
    hostTurn (.writeOut 2 0#8) crossed = .refused .hostTouchesInputWhileBusy := rfl

/-- R113: in DONE there is no result for the host before a STATUS read has returned DONE. -/
theorem test_collect_needs_status :
    after (hostTurn .collect { job [] 0 with st := .done }) = none ∧
      (after (hostTurn .collect ({ job [] 0 with st := .done }.hostReads 0))).map (fun t => t.replies.head?) =
        some (some (.result [] 0 false false false)) := by decide

/-! ### The step runs the word that is loaded -/

theorem test_withFetchWord : (after (step (State.reset.withFetchWord 8 0x02))).map (fun t => (t.rd, t.wr)) =
    some (4, 3) := by decide

/-! ### Witnesses for the hypotheses of the obligations -/

theorem witness_RepeatLengthFormsAgree : (1#7 : RunField) ≠ 0#7 ∧ (127#7 : RunField) ≠ 0#7 := by decide

theorem witness_EveryControlByteHasItsClassAndLength :
    (0x7F#8).toNat ≤ 0x7F ∧ (0x80#8).toNat = 0x80 ∧ 0x81 ≤ (0x81#8).toNat := by decide

theorem witness_DecodeAndEncodeAgree :
    (Instr.rep 127#7).wellFormed = true ∧ (Instr.lit 0#7).wellFormed = true ∧ Instr.nop.wellFormed = true := by decide

theorem witness_DisassembleInvertsAssemble :
    ∀ it ∈ [Item.nop, .lit [0x41#8], .rep 128 0x80#8], it.isUnit = true ∧ it.wellFormed = true := by decide

theorem witness_AssemblerLinesAndRefusals :
    (1 ≤ [0x41#8].length ∧ [0x41#8].length ≤ 128) ∧ ([] : List Byte).length = 0 ∧
      128 < (List.replicate 129 0#8).length ∧ (2 ≤ 128 ∧ 128 ≤ 128) ∧ 1 < 2 ∧ 128 < 129 := by
  simp

theorem witness_UnitLengthFromControlByte :
    takeUnit [0x00#8, 0x41#8, 0x80#8] = some (.lit [0x41#8], [0x80#8]) ∧
      takeUnit [0x80#8, 0x41#8] = some (.nop, [0x41#8]) ∧ takeUnit [0x81#8, 0x41#8] = some (.rep 128 0x41#8, []) := by
  decide

theorem witness_LitCopiesTheClampedRun : Covers (job [0x41#8, 0x42#8] 2) := job_covers _ _

theorem witness_RepReplicatesTheValueByte :
    (1#7 : RunField) ≠ 0#7 ∧ Covers (job [0x41#8] 2) ∧ (job [0x41#8] 2).rd < (job [0x41#8] 2).inLen ∧
      Covers (job [] 2) ∧ (job [] 2).rd = (job [] 2).inLen :=
  ⟨by decide, job_covers _ _, by decide, job_covers _ _, rfl⟩

theorem witness_StepRunsTheDecodedUnit : let u := job [0x80#8] 1
    u.nextTurn = (.decoder, u) ∧ u.st = .scan ∧ u.impl = .unitLevel ∧ u.wr ≠ u.outCap ∧ u.rd ≠ u.inLen ∧
      Mem.read u.input.cells u.rd = some 0x80#8 := by decide

theorem witness_EndStepOnlyMovesToDone : let u := job [0x80#8] 0; let v := engineJob [] 1
    (u.nextTurn = (.decoder, u) ∧ u.st = .scan ∧ u.impl = .unitLevel ∧ u.wr = u.outCap) ∧
      v.nextTurn = (.decoder, v) ∧ v.st = .scan ∧ v.ph = .ctrl ∧ v.rd = v.inLen := by decide

theorem witness_DecoderIsQuietOutsideScan :
    State.reset.nextTurn = (.decoder, State.reset) ∧ State.reset.st ≠ .scan := by decide

theorem witness_CursorsAdvanceByTheBytesMoved :
    (∃ t, decoderTurn (job [0x80#8] 1) = .next t) ∧ (∃ t, decoderTurn (job [0x00#8, 0x41#8] 1) = .next t) ∧
      (∃ t, decoderTurn (job [0xFF#8] 1) = .next t) ∧ ∃ t, decoderTurn (job [0xFF#8, 0x41#8] 1) = .next t :=
  ⟨⟨_, rfl⟩, ⟨_, rfl⟩, ⟨_, rfl⟩, ⟨_, rfl⟩⟩

theorem witness_CutShortUnitIsTheLast : let s := { job [0x05#8] 6 with rd := 1 }
    s.st = .scan ∧ s.impl = .unitLevel ∧ s.rd ≤ s.inLen ∧ s.wr ≤ s.outCap ∧
      (∃ t, exec (.lit 5#7) s = .next t ∧ t.wr - s.wr < litLength 5#7) ∧
      ∃ t, exec (.rep 127#7) s = .next t ∧ t.wr - s.wr < repLength 127#7 :=
  ⟨rfl, rfl, by decide, by decide, ⟨_, rfl, by decide⟩, ⟨_, rfl, by decide⟩⟩

theorem witness_EngineCtrlDemultiplexes :
    let s := engineJob [0x02#8, 0x41#8] 1
    s.st = .scan ∧ s.impl = .byteLevel ∧ s.ph = .ctrl ∧ s.wr ≠ s.outCap ∧ s.rd ≠ s.inLen ∧
      Mem.read s.input.cells s.rd = some 0x02#8 := by decide

theorem witness_EngineLitcCopiesOneByte : let s := { engineJob [0x00#8, 0x41#8] 1 with ph := .litc, rd := 1, cnt := 1 }
    s.st = .scan ∧ s.impl = .byteLevel ∧ s.ph = .litc ∧ 1 ≤ s.cnt ∧
      Mem.read s.input.cells s.rd = some 0x41#8 ∧ (Mem.read s.output.cells s.wr).isSome = true := by decide

theorem witness_EngineRfetchTakesTheValue :
    let s := { engineJob [0xFF#8, 0x41#8] 1 with ph := .rfetch, rd := 1, cnt := 2 }
    let s' := { engineJob [0xFF#8] 1 with ph := .rfetch, rd := 1, cnt := 2 }
    (s.st = .scan ∧ s.impl = .byteLevel ∧ s.ph = .rfetch ∧ s.rd ≠ s.inLen ∧
      Mem.read s.input.cells s.rd = some 0x41#8) ∧
      s'.st = .scan ∧ s'.impl = .byteLevel ∧ s'.ph = .rfetch ∧ s'.rd = s'.inLen := by decide

theorem witness_EngineRemitEmitsTheValue :
    let s := { engineJob [0xFF#8, 0x41#8] 1 with ph := .remit, rd := 2, cnt := 1, val := 0x41#8 }
    s.st = .scan ∧ s.impl = .byteLevel ∧ s.ph = .remit ∧ 1 ≤ s.cnt ∧
      (Mem.read s.output.cells s.wr).isSome = true := by decide

theorem witness_StepKeepsTheInvariant : Inv (job [0x02#8, 0x41#8] 2) ∧ ∃ t, step (job [0x02#8, 0x41#8] 2) = .next t :=
  ⟨job_inv _ _, _, rfl⟩

theorem witness_StepKeepsRegistersInRange : Inv (job [0x80#8] 1) ∧ InRange (job [0x80#8] 1) ∧
    ∃ t, step (job [0x80#8] 1) = .next t :=
  ⟨job_inv _ _, ⟨one_lt_width.1, one_lt_width.2, Nat.two_pow_pos _, Nat.two_pow_pos _⟩, _, rfl⟩

theorem witness_NoStepFaults : Inv (engineJob [0xFF#8, 0x41#8] 2) := engineJob_inv _ _

theorem witness_DecoderTurnAlwaysCompletes : Inv (job [0xFF#8, 0x41#8] 2) ∧ (job [0xFF#8, 0x41#8] 2).st = .scan :=
  ⟨job_inv _ _, rfl⟩

theorem witness_FsmMovesOnlyAsListed : ∃ t, step (job [0x80#8] 0) = .next t := ⟨_, rfl⟩

theorem witness_OnlyStartAndResetChangeRegisters :
    (HostAction.writeOut 0 0x41#8 ≠ .reset) ∧ (∀ l c, HostAction.writeOut 0 0x41#8 ≠ .start l c) ∧
      ∃ t, hostTurn (.writeOut 0 0x41#8) (idle 0 16) = .next t := ⟨nofun, nofun, _, rfl⟩

theorem witness_RegistersMoveOneWayWithinAJob :
    let s := { job [0x80#8] 1 with schedule := [.host (.start 0 0)] }
    (∃ t, step s = .next t) ∧ s.nextTurn.1 ≠ .host .reset ∧ s.nextTurn.1 = .host (.start 0 0) ∧ s.st = .scan :=
  ⟨⟨_, rfl⟩, nofun, rfl, rfl⟩

theorem witness_DecoderNeitherWritesInNorReadsOut :
    let s := job [0x00#8, 0x41#8] 1
    (Buffer.ofBytes 7 [0x55#8]).cells.map Prod.fst = s.output.cells.map Prod.fst ∧ ∃ t, decoderTurn s = .next t :=
  ⟨rfl, _, rfl⟩

theorem witness_DecoderReadsOnlyTheBytesPassed :
    let s := job [0x00#8, 0x41#8, 0x80#8] 1
    Inv s ∧ ∃ t, decoderTurn s = .next t ∧ ∀ a, s.rd ≤ a → a < t.rd →
      Mem.read (Buffer.ofBytes 0 [0x00#8, 0x41#8, 0xFF#8]).cells a = Mem.read s.input.cells a :=
  ⟨job_inv _ _, _, rfl, fun a _ h => by
    have h : a < 2 := h
    interval_cases a <;> rfl⟩

theorem witness_DecoderWritesOnlyAtTheCursor :
    Inv (job [0xFF#8, 0x41#8] 2) ∧ ∃ t, decoderTurn (job [0xFF#8, 0x41#8] 2) = .next t := ⟨job_inv _ _, _, rfl⟩

theorem witness_FlagsSteerNothing : ∃ t, decoderTurn (job [0x05#8, 0x41#8] 1) = .next t := ⟨_, rfl⟩

theorem witness_StartBeginsAJob : let s := idle 0 16
    s.st ≠ .scan ∧ 1 ≤ s.input.size ∧ 1 ≤ s.output.size ∧ s.input.overlaps 1 s.output 1 = false ∧
      1 < 2 ^ Config.inLenW ∧ 1 < 2 ^ Config.outCapW :=
  ⟨by decide, by decide, by decide, by decide, one_lt_width⟩

theorem witness_StartInBusyIsIgnored : (job [0x80#8] 1).st = .scan := rfl

theorem witness_BadLaunchesAreRefused :
    (idle 0 16).st ≠ .scan ∧ (idle 0 16).input.size < 4 ∧ (idle 0 16).output.size < 4 ∧
      (0 < 3 ∧ 0 < 1 ∧ (idle 0 2).input.base < (idle 0 2).output.base + 1 ∧
        (idle 0 2).output.base < (idle 0 2).input.base + 3) := by decide

theorem witness_BusyBuffersAreTheJobs :
    (let s := job [0x80#8] 1; s.st = .scan ∧ 0 < s.inLen ∧ 0 < s.outCap) ∧
      (let s := { job [0x80#8] 1 with st := .done }; s.st = .done ∧ s.doneRead = false) ∧
      (let s := crossed; s.st = .scan ∧ s.outCap ≤ 2 ∧ s.input.base ≤ s.output.base + 2 ∧
        s.output.base + 2 < s.input.base + s.inLen) ∧
      (let s := { idle 0 2 with st := .scan, inLen := 1, outCap := 1 }
       s.st = .scan ∧ s.inLen ≤ 2 ∧ s.output.base ≤ s.input.base + 2 ∧
        s.input.base + 2 < s.output.base + s.outCap) := by decide

theorem witness_HostWritesStoreOneByte :
    let s := { job [0x80#8, 0x41#8] 2 with inLen := 1, outCap := 1 }
    (s.st = .scan ∧ s.ownsInputAt (s.input.base + 1) 1 = false ∧ s.ownsOutputAt (s.input.base + 1) 1 = false ∧
        (Mem.read s.input.cells 1).isSome = true) ∧
      s.ownsOutputAt (s.output.base + 1) 1 = false ∧ s.ownsInputAt (s.output.base + 1) 1 = false ∧
        (Mem.read s.output.cells 1).isSome = true := by decide

theorem witness_ResetInBusyFreesTheOutput :
    let s := { job [0x80#8] 2 with outCap := 1 }
    s.st = .scan ∧ 0 < s.outCap ∧ (Mem.read s.output.cells 0).isSome = true ∧ s.outCap ≤ 1 := by decide

theorem witness_OutputReadsAreFreeWhileBusy :
    (Mem.read (job [0x80#8] 1).output.cells 0 = some 0xEE#8 ∧ (job [0x80#8] 1).st = .scan) ∧
      Mem.read (idle 0 16).output.cells 0 = some 0xEE#8 ∧ (idle 0 16).st = .idle := by decide

/-- A job in DONE with one byte produced of two, which the host has been told. -/
def finished : State := { job [0x00#8, 0x41#8] 2 with st := .done, rd := 2, wr := 1, doneRead := true }

theorem finished_inv : Inv finished := by
  constructor <;> first | exact Mem.full_ofBytes _ | simp [finished, job, State.reset, Buffer.ofBytes, EngineAgrees]

theorem witness_CollectGivesTheResult :
    (Inv finished ∧ finished.st = .done ∧ finished.doneRead = true ∧ finished.wr ≤ finished.output.size) ∧
      Inv (idle 0 16) ∧ (idle 0 16).st ≠ .done :=
  ⟨⟨finished_inv, rfl, rfl, by decide⟩, idle_inv _ _, by decide⟩

theorem witness_OnlyAStatusReadShowsDone :
    (Inv finished ∧ finished.doneRead = true ∧ ∃ t, step finished = .next t ∧ t.st = .done) ∧
      let s := { finished with doneRead := false, schedule := [.host (.read 0)] }
      s.nextTurn.1 = .host (.read 0) ∧ s.st = .done ∧ ∃ t, step s = .next t ∧ t.doneRead = true :=
  ⟨⟨finished_inv, rfl, _, rfl, rfl⟩, rfl, rfl, _, rfl, rfl⟩

theorem witness_HostReadsOfInputAnswerTheByte :
    (let s := { job [0x80#8, 0x41#8] 1 with inLen := 1 }
     Mem.read s.input.cells 1 = some 0x41#8 ∧ s.st = .scan ∧ s.inLen ≤ 1 ∧
      s.ownsOutputAt (s.input.base + 1) 1 = false) ∧
      (let s := { idle 0 2 with st := .scan, inLen := 1, outCap := 1 }
       Mem.read s.input.cells 2 = some 0x41#8 ∧ s.st = .scan ∧ s.inLen ≤ 2 ∧
        s.ownsOutputAt (s.input.base + 2) 1 = true) := by decide

theorem witness_ShortTellsAShortResult : Inv finished ∧ finished.st = .done := ⟨finished_inv, rfl⟩

theorem witness_PollingChangesNothing :
    let turns : List Turn := [.host (.read 0), .decoder, .host (.read 5)]
    (∀ x ∈ turns, x = .decoder ∨ ∃ r, x = .host (.read r)) ∧
      ∃ u, runSteps (turns.count .decoder) { job [0x80#8] 1 with schedule := [] } = .next u := by
  refine ⟨fun x hx => ?_, _, rfl⟩
  simp only [List.mem_cons, List.not_mem_nil, or_false] at hx
  rcases hx with rfl | rfl | rfl
  · exact .inr ⟨_, rfl⟩
  · exact .inl rfl
  · exact .inr ⟨_, rfl⟩

/-- The host polls, starts a job that is ignored, reads OUT and writes IN beyond the job's input. -/
theorem witness_HostActionsInBusyLeaveTheJob :
    let s := { job [0x80#8, 0x80#8, 0x41#8] 1 with inLen := 2 }
    let turns : List Turn := [.host (.read 0), .host (.start 0 0), .decoder, .host (.readOut 0), .host (.writeIn 2 0#8)]
    Inv s ∧ s.st = .scan ∧ (∀ a, .host a ∈ turns → a ≠ .reset ∧ ∃ t, hostTurn a s = .next t) ∧
      ∃ u, runSteps (turns.count .decoder) { s with schedule := [] } = .next u ∧ u.st = .scan := by
  refine ⟨?_, rfl, fun a ha => ?_, _, rfl, rfl⟩
  · constructor <;> first | exact Mem.full_ofBytes _ | simp [job, State.reset, Buffer.ofBytes, Buffer.size, Buffer.overlaps, rangesMeet, EngineAgrees]
  · simp only [List.mem_cons, List.not_mem_nil, or_false, Turn.host.injEq, reduceCtorEq, false_or] at ha
    rcases ha with rfl | rfl | rfl | rfl <;> exact ⟨nofun, _, rfl⟩

theorem witness_UnitLevelJobEnds : let s := job [0x80#8, 0x00#8, 0x41#8] 1
    Inv s ∧ s.st = .scan ∧ s.impl = .unitLevel ∧ s.schedule = [] := ⟨job_inv _ _, rfl, rfl, rfl⟩

/-- The input of R93's own example, where the bound is reached. -/
theorem witness_ByteLevelJobEnds : JobStarted (engineJob [0x81#8] 1) ∧ (engineJob [0x81#8] 1).schedule = [] ∧
    (engineJob [0x81#8] 1).impl = .byteLevel :=
  ⟨engineJob_started _ _, rfl, rfl⟩

theorem witness_ByteEngineSimulatesTheUnitMachine : let s := engineJob [0xFE#8, 0x7F#8] 3
    Inv s ∧ s.st = .scan ∧ s.impl = .byteLevel ∧ s.ph = .ctrl ∧ s.schedule = [] ∧
      ∃ u, step { s with impl := .unitLevel } = .next u := ⟨engineJob_inv _ _, rfl, rfl, rfl, rfl, _, rfl⟩

theorem witness_JobComputesTheDecodeCall : let s := job [0x80#8, 0x01#8, 0x05#8] 1
    JobStarted s ∧ s.schedule = [] ∧ Mem.readRun s.input.cells s.inLen 0 = some [0x80#8, 0x01#8, 0x05#8] :=
  ⟨job_started _ _, rfl, rfl⟩

/-- A run that the host disturbs in ways the rules admit, and a run of the other implementation. -/
theorem witness_ResultIsAFunctionOfTheJob :
    let s := { job [0xFF#8, 0x33#8] 1 with
      schedule := [.host (.readOut 0), .decoder, .host (.start 0 0), .host (.read 3)] }
    let s' := engineJob [0x80#8, 0x33#8] 0
    let s'' := { job [0x80#8, 0x33#8] 0 with schedule := [.host (.start 0 0), .host (.read 3)] }
    (JobStarted s ∧ ∃ t, JobDoneAt 5 s t) ∧ (JobStarted s' ∧ ∃ t, JobDoneAt 1 s' t) ∧
      (JobStarted s'' ∧ ∃ t, JobDoneAt 3 s'' t) ∧ s''.inLen = s'.inLen ∧ s''.outCap = s'.outCap ∧
      ∀ a, a < s''.inLen → Mem.read s''.input.cells a = Mem.read s'.input.cells a := by
  refine ⟨⟨⟨(job_inv _ _).of_lists _ _ _, rfl, rfl, rfl, rfl, rfl, rfl⟩, _, rfl, rfl, ?_⟩,
    ⟨engineJob_started _ _, _, rfl, rfl, ?_⟩,
    ⟨⟨(job_inv _ _).of_lists _ _ _, rfl, rfl, rfl, rfl, rfl, rfl⟩, _, rfl, rfl, ?_⟩, rfl, rfl, fun _ _ => rfl⟩
  all_goals
    intro j u hj h
    interval_cases j <;> cases h <;> rfl

theorem witness_RoundTripOfAnyEncoder :
    let units := [Item.rep 2 0xAA#8, .nop, .lit [0x80#8]]; let bytes := [0xFF#8, 0xAA#8, 0x80#8, 0x00#8, 0x80#8]
    let s := job bytes 3
    JobStarted s ∧ s.schedule = [] ∧ (∀ it ∈ units, it.isUnit = true ∧ it.wellFormed = true) ∧ assemble units = some bytes ∧
      s.inLen = bytes.length ∧ s.outCap = (units.flatMap Item.expand).length ∧
      Mem.readRun s.input.cells s.inLen 0 = some bytes :=
  ⟨job_started _ _, rfl, by decide, by decide, rfl, rfl, rfl⟩

theorem witness_HostCallReturnsTheDecode :
    let wait : List Turn := [.decoder, .host (.read 0), .decoder, .decoder]
    Inv State.reset ∧ State.reset.st = .idle ∧ (∀ x ∈ wait, x = .decoder ∨ ∃ r, x = .host (.read r)) ∧
      1 + 1 + 1 ≤ wait.count .decoder ∧ 1 ≤ [0x80#8].length ∧ 1 ≤ [0xEE#8].length ∧
      1 < 2 ^ Config.inLenW ∧ 1 < 2 ^ Config.outCapW ∧
      (Buffer.ofBytes 0 [0x80#8]).overlaps 1 (Buffer.ofBytes 16 [0xEE#8]) 1 = false :=
  ⟨by constructor <;> simp [State.reset, Buffer.none, EngineAgrees, Mem.full], rfl, by simp, by decide, by decide,
    by decide, one_lt_width.1, one_lt_width.2, by decide⟩

theorem witness_InstancesShareNoState :
    ∃ sys', System.step ⟨[job [0x80#8] 1, State.reset]⟩ 0 = .next sys' := ⟨_, rfl⟩

theorem witness_SharedBuffersAreRefused :
    let s := { idle 0 1 with schedule := [.host (.start 1 1)] }; let o := job [0x80#8] 1
    let u := idle 0 1
    (1 : Nat) ≠ 0 ∧ (System.mk [s, o]).instances[0]? = some s ∧ (System.mk [s, o]).instances[1]? = some o ∧
      s.st ≠ .scan ∧ s.nextTurn = (.host (.start 1 1), u) ∧ o.st = .scan ∧
      s.output.overlaps 1 o.output o.outCap = true ∧
      (let w := { idle 0 1 with schedule := [.host (.writeOut 0 0#8)] }
       o.ownsOutputAt w.touching.1 w.touching.2 = true) := by decide

end Sys2Proof.Tests
end

section
/-! SUPPORT. The host's writes outside a job's ranges (R80, R82, R84). -/

namespace Sys2Proof.Machine

/-- Settles O39: the write completes as `HostMove` says, and its byte and its frame are those of `Mem.write`. -/
theorem hostWritesStoreOneByte : Obligations.HostWritesStoreOneByte := by
  intro s a b
  constructor
  · intro hi ho hr
    exact ⟨_, hostTurn_eq_next.mpr (.writeIn a b hi ho hr), rfl, rfl, Mem.read_write_same b hr,
      fun _ hx => Mem.read_write_other b hx⟩
  · intro ho hi hr
    exact ⟨_, hostTurn_eq_next.mpr (.writeOut a b ho hi hr), rfl, rfl, Mem.read_write_same b hr,
      fun _ hx => Mem.read_write_other b hx⟩

end Sys2Proof.Machine
end

section
/-! SUPPORT. What the decoder's turn leaves alone, where it may take the cursors, and that it keeps the invariant (R28,
R63 to R67, R87 to R90). -/

namespace Sys2Proof.Machine

/-! ### The engine's registers, phase by phase -/

theorem engineAgrees_ctrl {s : State} (hp : s.ph = .ctrl) : EngineAgrees s ↔ s.cnt = 0 := by
  simp [EngineAgrees, hp]

theorem engineAgrees_litc {s : State} (hp : s.ph = .litc) : EngineAgrees s ↔
    1 ≤ s.cnt ∧ s.cnt ≤ 128 ∧ s.rd + s.cnt ≤ s.inLen ∧ s.wr + s.cnt ≤ s.outCap := by
  simp [EngineAgrees, hp]

theorem engineAgrees_rfetch {s : State} (hp : s.ph = .rfetch) : EngineAgrees s ↔
    2 ≤ s.cnt ∧ s.cnt ≤ 128 ∧ s.wr < s.outCap := by
  simp [EngineAgrees, hp]

theorem engineAgrees_remit {s : State} (hp : s.ph = .remit) : EngineAgrees s ↔
    1 ≤ s.cnt ∧ s.cnt ≤ 128 ∧ s.wr + s.cnt ≤ s.outCap := by
  simp [EngineAgrees, hp]

/-- At a unit boundary, which a unit-level machine never leaves, the engine is at rest (R24, R87). -/
theorem Inv.ph_of_boundary {s : State} (h : Inv s) (hb : s.impl = .unitLevel ∨ s.ph = .ctrl) : s.ph = .ctrl :=
  hb.elim h.ph_of_unitLevel id

/-! ### The frame -/

/-- The CTRL step's demultiplexing writes only the flags, `ph` and `cnt` (R87). -/
theorem engineDemux_frame (i : Instr) (s : State) : engineDemux i s =
    { s with
      trunc := (engineDemux i s).trunc, clamp := (engineDemux i s).clamp
      ph := (engineDemux i s).ph, cnt := (engineDemux i s).cnt } := by
  cases i <;> rfl

/-- The decoder writes `st`, the cursors, the flags, the engine's registers and OUT, and nothing else (R37). -/
theorem decoderMove_frame {s t : State} (h : DecoderMove s t) : t = { s with
    st := t.st, rd := t.rd, wr := t.wr, trunc := t.trunc, clamp := t.clamp
    ph := t.ph, cnt := t.cnt, val := t.val, output := t.output } := by
  cases h with
  | engineFetch => rw [engineDemux_frame]; rfl
  | lit _ _ _ _ _ _ _ _ hw => rw [hw.frame]; rfl
  | rep _ _ _ _ _ _ _ _ _ _ _ hw => rw [hw.frame]; rfl
  | engineCopy _ _ _ _ _ hw => rw [hw.frame]; rfl
  | engineEmit _ _ _ _ _ hw => rw [hw.frame]; rfl
  | _ => rfl

theorem DecoderMove.inLen_eq {s t : State} (h : DecoderMove s t) : t.inLen = s.inLen := by rw [decoderMove_frame h]
theorem DecoderMove.outCap_eq {s t : State} (h : DecoderMove s t) : t.outCap = s.outCap := by rw [decoderMove_frame h]
theorem DecoderMove.input_eq {s t : State} (h : DecoderMove s t) : t.input = s.input := by rw [decoderMove_frame h]
theorem DecoderMove.impl_eq {s t : State} (h : DecoderMove s t) : t.impl = s.impl := by rw [decoderMove_frame h]
theorem DecoderMove.schedule_eq {s t : State} (h : DecoderMove s t) : t.schedule = s.schedule := by
  rw [decoderMove_frame h]
theorem DecoderMove.doneRead_eq {s t : State} (h : DecoderMove s t) : t.doneRead = s.doneRead := by
  rw [decoderMove_frame h]

/-- Where OUT is and which offsets it has stands (R34). -/
theorem DecoderMove.output_shape {s t : State} (h : DecoderMove s t) :
    t.output.base = s.output.base ∧ t.output.cells.map Prod.fst = s.output.cells.map Prod.fst := by
  cases h with
  | engineFetch => rw [engineDemux_frame]; exact ⟨rfl, rfl⟩
  | lit _ _ _ _ _ _ _ _ hw => exact ⟨hw.base, hw.keys⟩
  | rep _ _ _ _ _ _ _ _ _ _ _ hw => exact ⟨hw.base, hw.keys⟩
  | engineCopy _ _ _ _ _ hw => exact ⟨hw.base, hw.keys⟩
  | engineEmit _ _ _ _ _ hw => exact ⟨hw.base, hw.keys⟩
  | _ => exact ⟨rfl, rfl⟩

theorem DecoderMove.output_size {s t : State} (h : DecoderMove s t) : t.output.size = s.output.size := by
  rw [Buffer.size, Buffer.size, ← List.length_map (f := Prod.fst), h.output_shape.2, List.length_map]

/-! ### The cursors, the flags and the FSM -/

/-- A decoder's turn is no step, or END, or a step inside the job (R63, R68). -/
theorem decoderMove_kinds {s t : State} (h : DecoderMove s t) :
    (s.st ≠ .scan ∧ t = s) ∨
      (s.st = .scan ∧ (s.impl = .unitLevel ∨ s.ph = .ctrl) ∧ (s.wr = s.outCap ∨ s.rd = s.inLen) ∧ t = s.finish) ∨
      (s.st = .scan ∧ t.st = .scan) := by
  cases h with
  | quiet hs => exact .inl ⟨hs, rfl⟩
  | finish hs hb he => exact .inr (.inl ⟨hs, hb, he, rfl⟩)
  | lit hs _ _ _ _ _ _ _ hw => exact .inr (.inr ⟨hs, hw.st_eq.trans hs⟩)
  | rep hs _ _ _ _ _ _ _ _ _ _ hw => exact .inr (.inr ⟨hs, hw.st_eq.trans hs⟩)
  | engineFetch hs => exact .inr (.inr ⟨hs, by rw [engineDemux_frame]; exact hs⟩)
  | engineCopy hs _ _ _ _ hw => exact .inr (.inr ⟨hs, hw.st_eq.trans hs⟩)
  | engineEmit hs _ _ _ _ hw => exact .inr (.inr ⟨hs, hw.st_eq.trans hs⟩)
  | nop hs | repMissing hs | engineMissing hs | engineValue hs => exact .inr (.inr ⟨hs, hs⟩)

/-- The decoder moves the cursors forward only and clears no flag (R18 to R21, R29). -/
theorem decoderMove_monotone {s t : State} (h : DecoderMove s t) :
    s.rd ≤ t.rd ∧ s.wr ≤ t.wr ∧ (s.trunc = true → t.trunc = true) ∧ (s.clamp = true → t.clamp = true) := by
  cases h with
  | lit _ _ _ _ _ _ _ _ hw =>
    simp +contextual [hw.rd_eq, hw.wr_eq, hw.trunc_eq, hw.clamp_eq, Nat.add_assoc]
  | rep _ _ _ _ _ _ _ _ _ _ _ hw => simp +contextual [hw.rd_eq, hw.wr_eq, hw.trunc_eq, hw.clamp_eq]
  | engineFetch _ _ _ _ c => cases decodeByte c <;> simp +contextual [engineDemux]
  | engineCopy _ _ _ _ _ hw => simp [hw.rd_eq, hw.wr_eq, hw.trunc_eq, hw.clamp_eq]
  | engineEmit _ _ _ _ _ hw => simp [hw.rd_eq, hw.wr_eq, hw.trunc_eq, hw.clamp_eq]
  | _ => simp +contextual

/-- The decoder takes neither cursor past its bound (R28, R69, R71). -/
theorem decoderMove_bounds {s t : State} (h : Inv s) (hm : DecoderMove s t) : t.rd ≤ s.inLen ∧ t.wr ≤ s.outCap := by
  have hrd := h.rdBound
  have hwr := h.wrBound
  cases hm with
  | quiet | finish | engineMissing => exact ⟨hrd, hwr⟩
  | nop _ _ he | repMissing _ _ he => exact ⟨by simp; omega, hwr⟩
  | lit _ _ he _ _ m _ _ hw =>
    have := litCount_le (s.advance 1 0) (litLength m)
    simp [hw.rd_eq, hw.wr_eq] at *; omega
  | rep _ _ he _ _ m _ hv _ _ _ hw =>
    have := repCount_le s (repLength m)
    simp [hw.rd_eq, hw.wr_eq]; omega
  | engineFetch _ _ _ he => rw [engineDemux_frame]; exact ⟨by simp; omega, hwr⟩
  | engineCopy _ _ hp _ _ hw =>
    have := (engineAgrees_litc hp).mp h.engine
    simp [hw.rd_eq, hw.wr_eq]; omega
  | engineValue _ _ _ hv => exact ⟨by simp; omega, hwr⟩
  | engineEmit _ _ hp _ _ hw =>
    have := (engineAgrees_remit hp).mp h.engine
    simp [hw.rd_eq, hw.wr_eq]; omega

/-! ### The engine's registers after a turn -/

/-- After the CTRL step the count is what the fetched unit may still move (R87). -/
theorem engineAgrees_engineDemux {s : State} {i : Instr} (hi : i.wellFormed = true) (h0 : s.cnt = 0)
    (hrd : s.rd ≤ s.inLen) (hwr : s.wr < s.outCap) : EngineAgrees (engineDemux i s) := by
  cases i with
  | nop => exact (engineAgrees_ctrl rfl).mpr h0
  | lit m =>
    have hn := litCount_le s (litLength m)
    have hm := litLength_bounds m
    by_cases hz : litCount s (litLength m) = 0
    · exact (engineAgrees_ctrl (by simp [engineDemux, hz])).mpr hz
    · exact (engineAgrees_litc (by simp [engineDemux, hz])).mpr (by simp [engineDemux]; omega)
  | rep m =>
    have := repLength_bounds (m := m) (by simpa [Instr.wellFormed] using hi)
    exact (engineAgrees_rfetch rfl).mpr ⟨this.1, this.2, hwr⟩

/-- One byte of a run less to move, and the boundary after the last (R88, R90). -/
theorem engineAgrees_countDown {s : State} (hp : s.ph = .litc ∨ s.ph = .remit) (hc : s.cnt ≤ 128)
    (hrd : s.ph = .litc → s.rd + (s.cnt - 1) ≤ s.inLen) (hwr : s.wr + (s.cnt - 1) ≤ s.outCap) :
    EngineAgrees s.countDown := by
  by_cases hz : s.cnt - 1 = 0
  · exact (engineAgrees_ctrl (by simp [hz])).mpr hz
  · rcases hp with hp | hp
    · exact (engineAgrees_litc (by simp [hz, hp])).mpr (by have := hrd hp; simp; omega)
    · exact (engineAgrees_remit (by simp [hz, hp])).mpr (by simp; omega)

/-- The decoder's turn leaves the engine's registers in agreement with the job (R86 to R90). -/
theorem decoderMove_engine {s t : State} (h : Inv s) (hm : DecoderMove s t) : EngineAgrees t := by
  have hrd := h.rdBound
  have hwr := h.wrBound
  have rest (hp : s.ph = .ctrl) : s.cnt = 0 := (engineAgrees_ctrl hp).mp h.engine
  cases hm with
  | quiet | finish => exact h.engine
  | nop _ hi | repMissing _ hi =>
    have hp := h.ph_of_unitLevel hi
    exact (engineAgrees_ctrl (by exact hp)).mpr (rest hp)
  | lit _ hi _ _ _ _ _ _ hw | rep _ hi _ _ _ _ _ _ _ _ _ hw =>
    have hp := h.ph_of_unitLevel hi
    exact (engineAgrees_ctrl (by exact hw.ph_eq.trans hp)).mpr (hw.cnt_eq.trans (rest hp))
  | engineFetch _ _ hp he c =>
    exact engineAgrees_engineDemux (decodeByte_wellFormed c) (rest hp) (by simp; omega) (by simp; omega)
  | engineCopy _ _ hp _ _ hw =>
    have := (engineAgrees_litc hp).mp h.engine
    exact engineAgrees_countDown (.inl (by simp [hw.ph_eq, hp])) (by simp [hw.cnt_eq]; omega)
      (by simp [hw.rd_eq, hw.cnt_eq, hw.inLen_eq]; omega) (by simp [hw.wr_eq, hw.cnt_eq, hw.outCap_eq]; omega)
  | engineMissing => exact (engineAgrees_ctrl rfl).mpr rfl
  | engineValue _ _ hp =>
    have hc := (engineAgrees_rfetch hp).mp h.engine
    refine (engineAgrees_remit rfl).mpr ?_
    simp [repCount, State.outRem]; omega
  | engineEmit _ _ hp _ _ hw =>
    have := (engineAgrees_remit hp).mp h.engine
    exact engineAgrees_countDown (.inr (by simp [hw.ph_eq, hp])) (by simp [hw.cnt_eq]; omega)
      (by simp [hw.ph_eq, hp]) (by simp [hw.wr_eq, hw.cnt_eq, hw.outCap_eq]; omega)

/-- A unit-level machine stays at the unit boundary (R24). -/
theorem decoderMove_ph {s t : State} (h : Inv s) (hm : DecoderMove s t) (hi : s.impl = .unitLevel) :
    t.ph = .ctrl := by
  have hp := h.ph_of_unitLevel hi
  cases hm with
  | quiet | finish | nop | repMissing => exact hp
  | lit _ _ _ _ _ _ _ _ hw | rep _ _ _ _ _ _ _ _ _ _ _ hw => exact hw.ph_eq.trans hp
  | engineFetch _ hi' | engineCopy _ hi' | engineMissing _ hi' | engineValue _ hi' | engineEmit _ hi' =>
    cases hi.symm.trans hi'

/-- The decoder's turn keeps the invariant. -/
theorem decoderMove_inv {s t : State} (h : Inv s) (hm : DecoderMove s t) : Inv t := by
  obtain ⟨-, rfl⟩ | ⟨hs, hb, he, rfl⟩ | ⟨hs, ht⟩ := decoderMove_kinds hm
  · exact h
  · have hp := h.ph_of_boundary hb
    exact { h with
      inputFits := nofun, outputFits := nofun, buffersApart := nofun, idleZero := nofun
      engine := h.engine, boundary := fun hn => absurd hp hn
      doneAtBound := fun _ => he, doneReadInDone := fun _ => rfl }
  · obtain ⟨hrd, hwr⟩ := decoderMove_bounds h hm
    exact {
      inputFull := by rw [hm.input_eq]; exact h.inputFull
      outputFull := (Mem.full_congr hm.output_shape.2).mpr h.outputFull
      rdBound := by rwa [hm.inLen_eq]
      wrBound := by rwa [hm.outCap_eq]
      inputFits := fun _ => by rw [hm.inLen_eq, hm.input_eq]; exact h.inputFits hs
      outputFits := fun _ => by rw [hm.outCap_eq, hm.output_size]; exact h.outputFits hs
      buffersApart := fun _ => by
        rw [Buffer.overlaps, hm.output_shape.1, hm.input_eq, hm.inLen_eq, hm.outCap_eq]
        exact h.buffersApart hs
      engine := decoderMove_engine h hm
      boundary := fun hn => ⟨ht, by
        rw [hm.impl_eq]
        cases hi : s.impl with
        | unitLevel => exact absurd (decoderMove_ph h hm hi) hn
        | byteLevel => rfl⟩
      idleZero := by simp [ht]
      doneAtBound := by simp [ht]
      doneReadInDone := fun hd => by
        rw [hm.doneRead_eq] at hd
        have := h.doneReadInDone hd
        rw [hs] at this; cases this }

end Sys2Proof.Machine
end

section
/-! SUPPORT. The invariant: it holds at reset, and the host's actions and the decoder's turn keep it (R28, R81, R83,
R109). -/

namespace Sys2Proof.Machine

/-- Settles O23: the buffers are empty and every register is 0. -/
theorem resetMeetsTheInvariant : Obligations.ResetMeetsTheInvariant :=
  { inputFull := rfl, outputFull := rfl, rdBound := Nat.le_refl 0, wrBound := Nat.le_refl 0
    inputFits := nofun, outputFits := nofun, buffersApart := nofun, engine := rfl
    boundary := fun h => absurd rfl h, idleZero := fun _ => ⟨rfl, rfl, rfl, rfl, rfl, rfl⟩
    doneAtBound := nofun, doneReadInDone := nofun }

/-- A RESET leaves a state with the invariant (R109, R110). -/
theorem Inv.resetBlock {s : State} (h : Inv s) : Inv s.resetBlock := by
  obtain ⟨hl, hc, hrd, hwr, htr, hcl, hp, hn, -⟩ := s.resetBlock_registers
  have hfull : Mem.full s.resetBlock.output.cells := by
    unfold State.resetBlock
    cases s.st with
    | scan => exact Mem.full_scramble _ _ h.outputFull
    | idle | done => exact h.outputFull
  exact {
    inputFull := by rw [s.resetBlock_frame.1]; exact h.inputFull
    outputFull := hfull
    rdBound := by simp [hrd], wrBound := by simp [hwr]
    inputFits := by simp, outputFits := by simp, buffersApart := by simp
    engine := (engineAgrees_ctrl hp).mpr hn
    boundary := fun h => absurd hp h
    idleZero := fun _ => ⟨hl, hc, hrd, hwr, htr, hcl⟩
    doneAtBound := by simp
    doneReadInDone := by unfold State.resetBlock; cases s.st <;> simp }

/-- A START that takes effect leaves a state with the invariant: the launch conditions are its clauses (R74, R112). -/
theorem Inv.startJob {s : State} (h : Inv s) {l c : Nat} (hl : launchRefusal s l c = none) : Inv (s.startJob l c) := by
  obtain ⟨hin, hout, hapart, -, -⟩ := launchRefusal_eq_none.mp hl
  exact {
    inputFull := h.inputFull, outputFull := h.outputFull, rdBound := Nat.zero_le l, wrBound := Nat.zero_le c
    inputFits := fun _ => hin, outputFits := fun _ => hout, buffersApart := fun _ => hapart
    engine := (engineAgrees_ctrl rfl).mpr rfl
    boundary := fun h => absurd rfl h
    idleZero := nofun, doneAtBound := nofun, doneReadInDone := nofun }

/-- A host action that completes keeps the invariant. -/
theorem hostMove_inv {a : HostAction} {s t : State} (h : Inv s) (hm : HostMove s a t) : Inv t := by
  cases hm with
  | reset => exact h.resetBlock
  | startIgnored => exact h
  | startTaken l c hs hl => exact h.startJob hl
  | read r =>
    have hdone : s.doneRead = true ∨ (r = 0 ∧ s.st = .done) → s.st = .done := (·.elim h.doneReadInDone And.right)
    exact { h with doneReadInDone := by simpa using hdone }
  | place ib is ob os hp =>
    have hs : s.st ≠ .scan := fun hs => by simp [resultPending_of_scan hs] at hp
    exact { h with
      inputFull := Mem.full_ofBytes is, outputFull := Mem.full_ofBytes os
      inputFits := fun h => absurd h hs, outputFits := fun h => absurd h hs
      buffersApart := fun h => absurd h hs }
  | writeIn i b =>
    exact { h with
      inputFull := Mem.full_write i b h.inputFull
      inputFits := fun hs => by simpa [Buffer.size] using h.inputFits hs }
  | writeOut j b =>
    exact { h with
      outputFull := Mem.full_write j b h.outputFull
      outputFits := fun hs => by simpa [Buffer.size] using h.outputFits hs }
  | readIn | readInFree | readOut | readOutFree | collect => exact h.of_lists _ _ _

/-- A step is a move of the decoder's or of the host's, from the state with some other schedule. -/
theorem step_moves {s t : State} (h : step s = .next t) : ∃ turns,
    (s.nextTurn.1 = .decoder ∧ DecoderMove { s with schedule := turns } t) ∨
      ∃ a, s.nextTurn.1 = .host a ∧ HostMove { s with schedule := turns } a t := by
  refine ⟨s.nextTurn.2.schedule, ?_⟩
  rw [← nextTurn_snd]
  obtain ⟨hturn, hd⟩ | ⟨a, hturn, ha⟩ := step_next h
  · exact .inl ⟨hturn, decoderTurn_next hd⟩
  · exact .inr ⟨a, hturn, hostTurn_eq_next.mp ha⟩

/-- Settles O24: the decoder's moves keep the invariant, and so do the host's. -/
theorem stepKeepsTheInvariant : Obligations.StepKeepsTheInvariant := by
  intro s t h hst
  obtain ⟨turns, ⟨-, hm⟩ | ⟨a, -, hm⟩⟩ := step_moves hst
  · exact decoderMove_inv (h.of_lists turns _ _) hm
  · exact hostMove_inv (h.of_lists turns _ _) hm

end Sys2Proof.Machine
end

section
/-! SUPPORT. What the registers do over a step: their ranges, the transitions of `st`, and what moves one way (R15, R27
to R29, R71). -/

namespace Sys2Proof.Machine

/-- Settles O25: `rd` and `wr` lie below the lengths, which only a START with operands that fit, or a RESET, writes. -/
theorem stepKeepsRegistersInRange : Obligations.StepKeepsRegistersInRange := by
  intro s t hinv hr hst
  have ht := stepKeepsTheInvariant s t hinv hst
  have hrd := ht.rdBound
  have hwr := ht.wrBound
  suffices hlen : t.inLen < 2 ^ Config.inLenW ∧ t.outCap < 2 ^ Config.outCapW from
    ⟨hlen.1, hlen.2, Nat.lt_of_le_of_lt hrd hlen.1, Nat.lt_of_le_of_lt hwr hlen.2⟩
  obtain ⟨turns, ⟨-, hm⟩ | ⟨a, -, hm⟩⟩ := step_moves hst
  · rw [hm.inLen_eq, hm.outCap_eq]
    exact ⟨hr.inLen, hr.outCap⟩
  · cases hm with
    | reset =>
      obtain ⟨hl, hc, -⟩ := State.resetBlock_registers { s with schedule := turns }
      rw [hl, hc]
      exact ⟨Nat.two_pow_pos _, Nat.two_pow_pos _⟩
    | startTaken l c _ hn =>
      obtain ⟨-, -, -, h1, h2⟩ := launchRefusal_eq_none.mp hn
      exact ⟨h1, h2⟩
    | _ => exact ⟨hr.inLen, hr.outCap⟩

/-- Settles O28: the decoder moves `st` by END alone, the host by RESET and by a START that takes effect. -/
theorem fsmMovesOnlyAsListed : Obligations.FsmMovesOnlyAsListed := by
  intro s t hst
  obtain ⟨turns, ⟨hturn, hm⟩ | ⟨a, hturn, hm⟩⟩ := step_moves hst
  · obtain ⟨-, rfl⟩ | ⟨hs, -, he, rfl⟩ | ⟨hs, ht⟩ := decoderMove_kinds hm
    · exact .inl rfl
    · exact .inr (.inr (.inr ⟨rfl, hs, hturn, he⟩))
    · exact .inl (ht.trans hs.symm)
  · cases hm with
    | reset => exact .inr (.inl ⟨State.resetBlock_st _, hturn⟩)
    | startTaken l c hs =>
      refine .inr (.inr (.inl ⟨rfl, ?_, l, c, hturn⟩))
      cases hf : s.st with
      | idle => exact .inl rfl
      | done => exact .inr rfl
      | scan => exact absurd hf hs
    | _ => exact .inl rfl

/-- Settles O29: the frame of every such action is `hostTurn_plain`'s. -/
theorem onlyStartAndResetChangeRegisters : Obligations.OnlyStartAndResetChangeRegisters := by
  intro a s t h1 h2 h
  rw [hostTurn_plain h1 h2 h]
  exact ⟨rfl, rfl, rfl, rfl, rfl, rfl, rfl, rfl, rfl, rfl, rfl⟩

/-- Settles O30: the decoder moves the registers one way and has no step in DONE; the host's actions but RESET and a
START that takes effect leave them alone. -/
theorem registersMoveOneWayWithinAJob : Obligations.RegistersMoveOneWayWithinAJob := by
  intro s t hst hreset hstart
  obtain ⟨turns, ⟨-, hm⟩ | ⟨a, hturn, hm⟩⟩ := step_moves hst
  · obtain ⟨hrd, hwr, htr, hcl⟩ := decoderMove_monotone hm
    refine ⟨hrd, hwr, htr, hcl, hm.inLen_eq, hm.outCap_eq, fun hdone => ?_⟩
    cases hm with
    | quiet => exact ⟨hdone, rfl, rfl, rfl, rfl⟩
    | _ hs => cases hs.symm.trans hdone
  · suffices h : t.st = s.st ∧ t.inLen = s.inLen ∧ t.outCap = s.outCap ∧ t.rd = s.rd ∧ t.wr = s.wr ∧
        t.trunc = s.trunc ∧ t.clamp = s.clamp by
      obtain ⟨hf, hl, hc, hrd, hwr, htr, hcl⟩ := h
      simp [hf, hl, hc, hrd, hwr, htr, hcl]
    cases hm with
    | reset => exact absurd hturn hreset
    | startTaken l c hs => exact absurd (hstart l c hturn) hs
    | _ => exact ⟨rfl, rfl, rfl, rfl, rfl, rfl, rfl⟩

end Sys2Proof.Machine
end

section
/-! SUPPORT. The host's view of the registers (R22, R25, R26, R76). -/

namespace Sys2Proof.Machine

/-- Settles O40: the answer is `readRegister`'s, and it says DONE for STATUS in DONE alone. -/
theorem readAnswersTheRegister : Obligations.ReadAnswersTheRegister := by
  intro s r
  refine ⟨s.readRegister r, ?_, ?_, ?_, ?_, ?_, ?_, ?_⟩
  · rw [← saysDone_readRegister]; rfl
  · rintro rfl; rfl
  · rintro rfl; rfl
  · rintro rfl; rfl
  · rintro rfl; rfl
  · rintro rfl; rfl
  · intro h
    obtain ⟨k, rfl⟩ := Nat.exists_eq_add_of_le' h
    rfl

/-- SHORT is set exactly in DONE with room left in OUT (R22). -/
theorem short_eq_true {s : State} : s.short = true ↔ s.st = .done ∧ s.wr < s.outCap := by
  simp [State.short]

/-- The layout of STATUS, for any fields (R26). -/
theorem status_layout (short clamp trunc : Bool) (c : BitVec 2) :
    let w := 0#3 ++ BitVec.ofBool short ++ BitVec.ofBool clamp ++ BitVec.ofBool trunc ++ c
    w.extractLsb' 0 2 = c ∧ w.getLsbD 2 = trunc ∧ w.getLsbD 3 = clamp ∧ w.getLsbD 4 = short ∧
      w.extractLsb' 5 3 = 0#3 := by
  revert short clamp trunc c; decide

/-- Settles O41: the layout, with `short` computed as R22 says. -/
theorem statusFields : Obligations.StatusFields := by
  refine ⟨by decide, fun s => ?_⟩
  obtain ⟨hst, htr, hcl, hsh, hz⟩ := status_layout s.short s.clamp s.trunc (stateCode s.st)
  refine ⟨?_, htr, hcl, by rw [← short_eq_true, ← hsh]; rfl, hz⟩
  have hst : s.statusWord.extractLsb' 0 2 = stateCode s.st := hst
  rw [hst]
  cases s.st <;> rfl

/-- Settles O47: in DONE, `wr` is below `out_cap` or at it. -/
theorem shortTellsAShortResult : Obligations.ShortTellsAShortResult := by
  intro s h hs
  have hwr := h.wrBound
  rw [← Bool.not_eq_true, short_eq_true]
  constructor
  · intro hn
    by_contra hne
    exact hn ⟨hs, by omega⟩
  · rintro he ⟨-, hlt⟩
    omega

end Sys2Proof.Machine
end

section
/-! SUPPORT. How far a unit-level step moves the cursors (R18, R19, R69). -/

namespace Sys2Proof.Machine

/-- Settles O17: one case per control unit; the bytes stored are those its run of writes stored. -/
theorem cursorsAdvanceByTheBytesMoved : Obligations.CursorsAdvanceByTheBytesMoved := by
  intro s t c hs hi hwr hrd hc h
  cases decoderTurn_next h with
  | quiet hn => exact absurd hs hn
  | finish _ _ he => exact absurd he (not_or.mpr ⟨hwr, hrd⟩)
  | nop _ _ _ c' hc' hd =>
    obtain rfl : c = c' := Option.some.inj (hc.symm.trans hc')
    rw [hd]
    exact ⟨hs, Nat.lt_succ_self _, fun _ => ⟨rfl, rfl⟩, nofun, nofun⟩
  | lit _ _ _ c' hc' m hd u hw =>
    obtain rfl : c = c' := Option.some.inj (hc.symm.trans hc')
    rw [hd]
    refine ⟨hw.st_eq.trans hs, by simp [hw.rd_eq]; omega, nofun, ?_, nofun⟩
    rintro _ ⟨⟩
    exact ⟨by simp [hw.rd_eq], by simp [hw.wr_eq], hw.wrote⟩
  | repMissing _ _ _ c' hc' m hd hv =>
    obtain rfl : c = c' := Option.some.inj (hc.symm.trans hc')
    rw [hd]
    refine ⟨hs, Nat.lt_succ_self _, nofun, nofun, ?_⟩
    rintro _ ⟨⟩
    exact ⟨fun _ => ⟨rfl, rfl⟩, fun hn => absurd hv hn⟩
  | rep _ _ _ c' hc' m hd hv v hr u hw =>
    obtain rfl : c = c' := Option.some.inj (hc.symm.trans hc')
    rw [hd]
    refine ⟨hw.st_eq.trans hs, by simp [hw.rd_eq], nofun, nofun, ?_⟩
    rintro _ ⟨⟩
    exact ⟨fun hn => absurd hn hv, fun _ => ⟨by simp [hw.rd_eq], by simp [hw.wr_eq], fun k hk => by
      rw [hr]; exact hw.wrote k hk⟩⟩
  | engineFetch _ hb | engineCopy _ hb | engineMissing _ hb | engineValue _ hb | engineEmit _ hb =>
    cases hi.symm.trans hb

end Sys2Proof.Machine
end

section
/-! SUPPORT. A stretch of a buffer as a list of bytes. -/

namespace Sys2Proof.Machine

/-- The `n` bytes from offset `a` on, with 0 for a byte that does not exist: `Mem.readRun` where they all exist. -/
def Mem.bytesAt (m : List Host.Cell) (a n : Nat) : List Byte :=
  (List.range n).map fun k => (Mem.read m (a + k)).getD 0#8

@[simp] theorem Mem.length_bytesAt (m : List Host.Cell) (a n : Nat) : (Mem.bytesAt m a n).length = n := by
  simp [Mem.bytesAt]

@[simp] theorem Mem.bytesAt_zero (m : List Host.Cell) (a : Nat) : Mem.bytesAt m a 0 = [] := rfl

/-- A stretch of bytes that exist is what is read there. -/
theorem Mem.getElem?_bytesAt {m : List Host.Cell} {a n k : Nat} (hk : k < n) (h : (Mem.read m (a + k)).isSome) :
    (Mem.bytesAt m a n)[k]? = Mem.read m (a + k) := by
  obtain ⟨b, hb⟩ := Option.isSome_iff_exists.mp h
  simp [Mem.bytesAt, hk, hb]

theorem Mem.readRun_eq_bytesAt {m : List Host.Cell} {a n : Nat}
    (h : ∀ k, k < n → (Mem.read m (a + k)).isSome) : Mem.readRun m n a = some (Mem.bytesAt m a n) :=
  (Mem.readRun_eq_some_iff m n a _).mpr ⟨by simp, fun k hk => (Mem.getElem?_bytesAt hk (h k hk)).symm⟩

theorem Mem.bytesAt_of_readRun {m : List Host.Cell} {a n : Nat} {bs : List Byte}
    (h : Mem.readRun m n a = some bs) : Mem.bytesAt m a n = bs := by
  obtain ⟨hl, hr⟩ := (Mem.readRun_eq_some_iff m n a bs).mp h
  have hsome (k : Nat) (hk : k < n) : (Mem.read m (a + k)).isSome := by
    rw [hr k hk, List.getElem?_eq_getElem (by omega)]; rfl
  exact Option.some.inj ((Mem.readRun_eq_bytesAt hsome).symm.trans h)

theorem Mem.drop_bytesAt (m : List Host.Cell) (a n k : Nat) :
    (Mem.bytesAt m a n).drop k = Mem.bytesAt m (a + k) (n - k) := by
  apply List.ext_getElem
  · simp
  · intro i h1 h2
    simp [Mem.bytesAt, Nat.add_assoc]

/-- Bytes stored behind a stretch that stands lengthen it. -/
theorem Mem.bytesAt_append {m m' : List Host.Cell} {n : Nat} {bs : List Byte}
    (hkept : ∀ a, a < n → Mem.read m' a = Mem.read m a)
    (hnew : ∀ k, k < bs.length → Mem.read m' (n + k) = bs[k]?) :
    Mem.bytesAt m' 0 (n + bs.length) = Mem.bytesAt m 0 n ++ bs := by
  apply List.ext_getElem
  · simp
  · intro i h1 h2
    simp only [Mem.length_bytesAt] at h1
    by_cases hi : i < n
    · rw [List.getElem_append_left (by simpa using hi)]
      simp [Mem.bytesAt, hkept i hi]
    · rw [List.getElem_append_right (by simpa using hi)]
      have := hnew (i - n) (by omega)
      rw [Nat.add_sub_cancel' (by omega), List.getElem?_eq_getElem (by omega)] at this
      simp [Mem.bytesAt, this]

end Sys2Proof.Machine
end

section
/-! SUPPORT. The decode call cut where the byte-level engine cuts it: after the control byte, after the value byte, and
after every byte moved (R63 to R67, R87 to R90). -/

namespace Sys2Proof.Machine

/-! ### Results in a row -/

@[simp] theorem CallResult.nothing_andThen (r : CallResult) : CallResult.nothing.andThen r = r := by
  simp [CallResult.andThen, CallResult.nothing]

@[simp] theorem CallResult.andThen_nothing (r : CallResult) : r.andThen .nothing = r := by
  simp [CallResult.andThen, CallResult.nothing]

theorem CallResult.andThen_assoc (a b c : CallResult) : (a.andThen b).andThen c = a.andThen (b.andThen c) := by
  simp [CallResult.andThen, Nat.add_assoc, Bool.or_assoc]

/-! ### The call and its parts -/

/-- The call on the bytes `input`, with fuel enough for each of them to be a unit. -/
def callRest (input : List Byte) (cap : Nat) : CallResult := callUnits input.length input cap

/-- The call in the midst of a LIT that has `n` bytes to copy (R88). -/
def callCopy (n : Nat) (input : List Byte) (cap : Nat) : CallResult :=
  CallResult.andThen ⟨input.take n, n, false, false⟩ (callRest (input.drop n) (cap - n))

/-- The call in the midst of a REP that has `n` bytes `v` to store (R90). -/
def callFill (n : Nat) (v : Byte) (input : List Byte) (cap : Nat) : CallResult :=
  CallResult.andThen ⟨List.replicate n v, 0, false, false⟩ (callRest input (cap - n))

/-- The call after the control byte of a REP of declared length `len` (R89). -/
def callValue (len : Nat) (input : List Byte) (cap : Nat) : CallResult :=
  match input with
  | [] => ⟨[], 0, true, false⟩
  | v :: rest => CallResult.andThen ⟨[], 1, false, decide (cap < len)⟩ (callFill (min len cap) v rest cap)

/-- Fuel beyond the input's length changes nothing. -/
theorem callUnits_fuel {f g cap : Nat} {input : List Byte} (hf : input.length ≤ f) (hg : input.length ≤ g) :
    callUnits f input cap = callUnits g input cap := by
  induction f generalizing g input cap with
  | zero =>
    obtain rfl := List.length_eq_zero_iff.mp (Nat.le_zero.mp hf)
    cases g <;> simp [callUnits]
  | succ f ih =>
    cases input with
    | nil => cases g <;> simp [callUnits]
    | cons c rest =>
      obtain ⟨g, rfl⟩ := Nat.exists_eq_add_of_le' (Nat.le_trans (Nat.succ_pos _) hg)
      simp only [List.length_cons] at hf hg
      have ih' {k cap' : Nat} : callUnits f (rest.drop k) cap' = callUnits g (rest.drop k) cap' :=
        ih (by simp; omega) (by simp; omega)
      simp only [callUnits]
      by_cases hcap : cap = 0
      · simp [hcap]
      · cases decodeByte c with
        | nop => simpa [hcap] using congrArg _ (ih' (k := 0))
        | lit m => simp [hcap, ih']
        | rep m =>
          cases rest with
          | nil => rfl
          | cons v rest => simpa [hcap] using congrArg _ (ih' (k := 1))

theorem callUnits_eq_callRest {f cap : Nat} {input : List Byte} (h : input.length ≤ f) :
    callUnits f input cap = callRest input cap := callUnits_fuel h (Nat.le_refl _)

/-- The call on all its input bytes. -/
theorem decodeCall_eq_callRest {bytes : List Byte} {l c : Nat} (h : bytes.length = l) :
    decodeCall bytes l c = callRest bytes c := by
  subst h; simp [decodeCall, callRest]

@[simp] theorem callRest_nil (cap : Nat) : callRest [] cap = .nothing := rfl

@[simp] theorem callRest_full (input : List Byte) : callRest input 0 = .nothing := by
  cases input <;> simp [callRest, callUnits]

@[simp] theorem callCopy_zero (input : List Byte) (cap : Nat) : callCopy 0 input cap = callRest input cap :=
  CallResult.nothing_andThen _

@[simp] theorem callFill_zero (v : Byte) (input : List Byte) (cap : Nat) :
    callFill 0 v input cap = callRest input cap :=
  CallResult.nothing_andThen _

section
variable {c : Byte} {rest : List Byte} {cap : Nat} {m : RunField}

theorem callRest_nop (hcap : cap ≠ 0) (hd : decodeByte c = .nop) :
    callRest (c :: rest) cap = CallResult.andThen ⟨[], 1, false, false⟩ (callRest rest cap) := by
  simp [callRest, callUnits, hcap, hd]

theorem callRest_lit (hcap : cap ≠ 0) (hd : decodeByte c = .lit m) :
    callRest (c :: rest) cap =
      CallResult.andThen ⟨[], 1, decide (rest.length < litLength m), decide (cap < litLength m)⟩
        (callCopy (min (litLength m) (min rest.length cap)) rest cap) := by
  have hlen : ((rest.take (litLength m)).take cap).length = min (litLength m) (min rest.length cap) := by
    simp; omega
  have htake : (rest.take (litLength m)).take cap = rest.take (min (litLength m) (min rest.length cap)) := by
    rw [List.take_take, List.take_eq_take_iff]; omega
  rw [callCopy, ← CallResult.andThen_assoc, callRest, List.length_cons]
  simp only [callUnits, hcap, hd, if_false, hlen]
  rw [callUnits_eq_callRest (by simp), htake]
  simp [CallResult.andThen]

theorem callRest_rep (hcap : cap ≠ 0) (hd : decodeByte c = .rep m) :
    callRest (c :: rest) cap = CallResult.andThen ⟨[], 1, false, false⟩ (callValue (repLength m) rest cap) := by
  cases rest with
  | nil => simp [callRest, callUnits, hcap, hd, callValue, CallResult.andThen]
  | cons v rest =>
    rw [callValue, callFill, callRest, List.length_cons]
    simp only [callUnits, hcap, hd, if_false]
    rw [callUnits_eq_callRest (by simp), ← CallResult.andThen_assoc, ← CallResult.andThen_assoc]
    simp [CallResult.andThen]

end

/-- A copy moves its first byte, then the others. -/
theorem callCopy_succ (n : Nat) (b : Byte) (rest : List Byte) (cap : Nat) :
    callCopy (n + 1) (b :: rest) cap =
      CallResult.andThen ⟨[b], 1, false, false⟩ (callCopy n rest (cap - 1)) := by
  rw [callCopy, callCopy, ← CallResult.andThen_assoc, List.drop_succ_cons, Nat.sub_sub, Nat.add_comm n]
  simp [CallResult.andThen, Nat.add_comm 1]

/-- A fill stores its byte once, then as often as is left. -/
theorem callFill_succ (n : Nat) (v : Byte) (input : List Byte) (cap : Nat) :
    callFill (n + 1) v input cap =
      CallResult.andThen ⟨[v], 0, false, false⟩ (callFill n v input (cap - 1)) := by
  rw [callFill, callFill, ← CallResult.andThen_assoc, Nat.sub_sub, Nat.add_comm n]
  simp [CallResult.andThen, Nat.add_comm 1, List.replicate_succ]

end Sys2Proof.Machine
end

section
/-! SUPPORT. The outcome of a job: what it has produced so far and what the rest of the call will add. The decoder's
turn does not change it, on either implementation (R73, R92). -/

namespace Sys2Proof.Machine

/-- The bytes of the job's input that are not read yet. -/
def State.unread (s : State) : List Byte := Mem.bytesAt s.input.cells s.rd s.inRem

/-- What the job has produced, read and met up to here. -/
def State.soFar (s : State) : CallResult :=
  { bytes := Mem.bytesAt s.output.cells 0 s.wr, consumed := s.rd, trunc := s.trunc, clamp := s.clamp }

/-- What the rest of the call adds, by the engine's phase; a unit-level job is always at a unit boundary. -/
def State.remaining (s : State) : CallResult :=
  match s.st with
  | .idle => .nothing
  | .done => .nothing
  | .scan =>
    match s.ph with
    | .ctrl => callRest s.unread s.outRem
    | .litc => callCopy s.cnt s.unread s.outRem
    | .rfetch => callValue s.cnt s.unread s.outRem
    | .remit => callFill s.cnt s.val s.unread s.outRem

/-- What the job ends with. -/
def State.outcome (s : State) : CallResult := s.soFar.andThen s.remaining

/-! ### What remains, phase by phase -/

theorem remaining_of_not_scan {s : State} (hs : s.st ≠ .scan) : s.remaining = .nothing := by
  unfold State.remaining; cases h : s.st <;> simp_all

theorem remaining_ctrl {s : State} (hs : s.st = .scan) (hp : s.ph = .ctrl) :
    s.remaining = callRest s.unread s.outRem := by simp [State.remaining, hs, hp]

theorem remaining_rfetch {s : State} (hs : s.st = .scan) (hp : s.ph = .rfetch) :
    s.remaining = callValue s.cnt s.unread s.outRem := by simp [State.remaining, hs, hp]

/-- A LIT with no byte left to copy is over, so the boundary needs no case of its own. -/
theorem remaining_copy {s : State} (hs : s.st = .scan) (hp : s.ph = if s.cnt = 0 then .ctrl else .litc) :
    s.remaining = callCopy s.cnt s.unread s.outRem := by
  by_cases h : s.cnt = 0 <;> simp [State.remaining, hs, hp, h]

/-- A REP with no byte left to store is over. -/
theorem remaining_fill {s : State} (hs : s.st = .scan) (hp : s.ph = if s.cnt = 0 then .ctrl else .remit) :
    s.remaining = callFill s.cnt s.val s.unread s.outRem := by
  by_cases h : s.cnt = 0 <;> simp [State.remaining, hs, hp, h]

/-! ### The unread input and the room left -/

@[simp] theorem unread_length (s : State) : s.unread.length = s.inRem := Mem.length_bytesAt _ _ _

/-- The unread bytes are those of IN from `rd` on (R18). -/
theorem unread_getElem? {s : State} (h : Covers s) {k : Nat} (hk : k < s.inRem) :
    s.unread[k]? = Mem.read s.input.cells (s.rd + k) :=
  Mem.getElem?_bytesAt hk (h.input _ (by simp only [State.inRem] at hk; omega))

/-- The first unread byte is the one at `rd`. -/
theorem unread_cons {s : State} {c : Byte} (hrd : s.rd < s.inLen) (hc : Mem.read s.input.cells s.rd = some c) :
    s.unread = c :: s.unread.drop 1 := by
  have hlen : 0 < s.unread.length := by simp [State.inRem]; omega
  refine (List.drop_eq_getElem_cons hlen).trans ?_
  simp [State.unread, Mem.bytesAt, hc]

theorem unread_advance (s : State) (n k : Nat) : (s.advance n k).unread = s.unread.drop n := by
  simp only [State.unread, State.inRem, Mem.drop_bytesAt, Nat.sub_sub, State.advance_rd, State.advance_inLen,
    State.advance_input]

/-- The decoder's turn reads the unread bytes in order. -/
theorem DecoderMove.unread_eq {s t : State} (hm : DecoderMove s t) {n : Nat} (hrd : t.rd = s.rd + n) :
    t.unread = s.unread.drop n := by
  simp only [State.unread, State.inRem, Mem.drop_bytesAt, Nat.sub_sub, hm.input_eq, hm.inLen_eq, hrd]

theorem DecoderMove.outRem_eq {s t : State} (hm : DecoderMove s t) {n : Nat} (hwr : t.wr = s.wr + n) :
    t.outRem = s.outRem - n := by
  simp only [State.outRem, hm.outCap_eq, hwr, Nat.sub_sub]

/-- The decoder's turn leaves every OUT byte alone that it does not move `wr` past (R36, R41). -/
theorem DecoderMove.kept {s t : State} (hm : DecoderMove s t) {a : Nat} (ha : a < s.wr ∨ t.wr ≤ a) :
    Mem.read t.output.cells a = Mem.read s.output.cells a := by
  cases hm with
  | lit _ _ _ _ _ _ _ _ hw | rep _ _ _ _ _ _ _ _ _ _ _ hw | engineCopy _ _ _ _ _ hw | engineEmit _ _ _ _ _ hw =>
    exact hw.kept a (by simpa [hw.wr_eq] using ha)
  | engineFetch => rw [engineDemux_frame]; rfl
  | _ => rfl

/-! ### The outcome stands -/

/-- A turn that adds `r` to what the job has produced, and takes it off what remains, leaves the outcome. -/
theorem outcome_eq_of_adds {s t : State} (r : CallResult) (hm : DecoderMove s t)
    (hrd : t.rd = s.rd + r.consumed) (hwr : t.wr = s.wr + r.bytes.length)
    (htr : t.trunc = (s.trunc || r.trunc)) (hcl : t.clamp = (s.clamp || r.clamp))
    (hb : ∀ k, k < r.bytes.length → Mem.read t.output.cells (s.wr + k) = r.bytes[k]?)
    (hrem : t.unread = s.unread.drop r.consumed → t.outRem = s.outRem - r.bytes.length →
      s.remaining = r.andThen t.remaining) : t.outcome = s.outcome := by
  have hso : t.soFar = s.soFar.andThen r := by
    simp only [State.soFar, CallResult.andThen, hrd, hwr, htr, hcl]
    rw [Mem.bytesAt_append (fun a ha => hm.kept (.inl ha)) hb]
  rw [State.outcome, State.outcome, hso, hrem (hm.unread_eq hrd) (hm.outRem_eq hwr), CallResult.andThen_assoc]

/-- Nothing remains at either bound (R63). -/
theorem callRest_atEnd {s : State} (he : s.wr = s.outCap ∨ s.rd = s.inLen) : callRest s.unread s.outRem = .nothing := by
  rcases he with he | he
  · simp [State.outRem, he]
  · have : s.unread = [] := List.length_eq_zero_iff.mp (by simp [State.inRem, he])
    simp [this]

/-- A LIT copies no more bytes than there are behind its control byte (R65). -/
theorem length_take_litCount (s : State) (len : Nat) :
    ((s.unread.drop 1).take (litCount (s.advance 1 0) len)).length = litCount (s.advance 1 0) len := by
  have := litCount_le (s.advance 1 0) len
  simp [State.inRem] at *; omega

/-! ### Units -/

section
variable {s : State} {c : Byte} {m : RunField}

/-- Away from the bounds there is a byte to read and room to store one (R63). -/
theorem Inv.room (h : Inv s) (he : s.wr ≠ s.outCap ∧ s.rd ≠ s.inLen) : s.rd < s.inLen ∧ s.outRem ≠ 0 := by
  have := h.rdBound
  have := h.wrBound
  simp only [State.outRem]; omega

variable (h : Inv s) (hs : s.st = .scan) (hp : s.ph = .ctrl) (he : s.wr ≠ s.outCap ∧ s.rd ≠ s.inLen)
  (hc : Mem.read s.input.cells s.rd = some c)
include h hs hp he hc

theorem remaining_of_nop (hd : decodeByte c = .nop) :
    s.remaining = CallResult.andThen ⟨[], 1, false, false⟩ (callRest (s.unread.drop 1) s.outRem) := by
  obtain ⟨hlt, hcap⟩ := h.room he
  rw [remaining_ctrl hs hp, unread_cons hlt hc, callRest_nop hcap hd]; rfl

theorem remaining_of_lit (hd : decodeByte c = .lit m) : s.remaining =
    CallResult.andThen
      ⟨[], 1, decide ((s.advance 1 0).inRem < litLength m), decide (s.outRem < litLength m)⟩
      (callCopy (litCount (s.advance 1 0) (litLength m)) (s.unread.drop 1) s.outRem) := by
  obtain ⟨hlt, hcap⟩ := h.room he
  have hlen : (s.unread.drop 1).length = (s.advance 1 0).inRem := by rw [← unread_advance s 1 0, unread_length]
  rw [remaining_ctrl hs hp, unread_cons hlt hc, callRest_lit hcap hd, hlen]; rfl

theorem remaining_of_rep (hd : decodeByte c = .rep m) : s.remaining =
    CallResult.andThen ⟨[], 1, false, false⟩ (callValue (repLength m) (s.unread.drop 1) s.outRem) := by
  obtain ⟨hlt, hcap⟩ := h.room he
  rw [remaining_ctrl hs hp, unread_cons hlt hc, callRest_rep hcap hd]; rfl

/-- LIT (R65). -/
theorem outcome_of_lit (hd : decodeByte c = .lit m) {u : State} {n : Nat}
    (hn : n = litCount (s.advance 1 0) (litLength m))
    (hw : Wrote ((s.advance 1 0).noteLit (litLength m)) u s.wr n fun k => Mem.read s.input.cells (s.rd + 1 + k))
    (move : DecoderMove s (u.advance n n)) : (u.advance n n).outcome = s.outcome := by
  have hle := litCount_le (s.advance 1 0) (litLength m)
  have hlen := length_take_litCount s (litLength m)
  rw [← hn] at hle hlen
  refine outcome_eq_of_adds
    ⟨(s.unread.drop 1).take n, 1 + n, decide ((s.advance 1 0).inRem < litLength m), decide (s.outRem < litLength m)⟩
    move (by simp [hw.rd_eq, Nat.add_assoc]) (by simp only [hlen]; simp [hw.wr_eq])
    (by simp [hw.trunc_eq]) (by simp [hw.clamp_eq]; rfl) (fun k hk => ?_) fun hu ho => ?_
  · simp only [hlen] at hk
    rw [List.getElem?_take_of_lt hk, List.getElem?_drop, unread_getElem? (h.covers hs), ← Nat.add_assoc]
    · exact hw.wrote k hk
    · simp [State.inRem] at *; omega
  · rw [remaining_of_lit h hs hp he hc hd, ← hn, callCopy, ← CallResult.andThen_assoc, List.drop_drop,
      remaining_ctrl (by exact hw.st_eq.trans hs) (by exact hw.ph_eq.trans hp), hu, ho]
    simp only [hlen]
    simp [CallResult.andThen]

/-- REP with its value byte (R66). -/
theorem outcome_of_rep (hd : decodeByte c = .rep m) (hv : s.rd + 1 ≠ s.inLen) {v : Byte}
    (hr : Mem.read s.input.cells (s.rd + 1) = some v) {u : State} {n : Nat} (hn : n = repCount s (repLength m))
    (hw : Wrote ((s.advance 2 0).noteRep (repLength m)) u s.wr n fun _ => some v)
    (move : DecoderMove s (u.advance 0 n)) : (u.advance 0 n).outcome = s.outcome := by
  have hv' : (s.unread.drop 1) = v :: s.unread.drop 2 := by
    have := h.rdBound
    have := unread_cons (s := s.advance 1 0) (by simp; omega) hr
    rwa [unread_advance, List.drop_drop] at this
  refine outcome_eq_of_adds ⟨List.replicate n v, 2, false, decide (s.outRem < repLength m)⟩
    move (by simp [hw.rd_eq]) (by simp [hw.wr_eq]) (by simp [hw.trunc_eq]) (by simp [hw.clamp_eq]; rfl)
    (fun k hk => ?_) fun hu ho => ?_
  · rw [List.length_replicate] at hk
    rw [List.getElem?_replicate_of_lt hk]
    exact hw.wrote k hk
  · rw [remaining_of_rep h hs hp he hc hd, hv', remaining_ctrl (by exact hw.st_eq.trans hs)
      (by exact hw.ph_eq.trans hp), hu, ho, callValue, callFill, ← CallResult.andThen_assoc,
      ← CallResult.andThen_assoc]
    simp [CallResult.andThen, hn, repCount]

/-- The engine's CTRL step with a unit to fetch (R87). -/
theorem outcome_of_engineFetch (move : DecoderMove s (engineDemux (decodeByte c) (s.advance 1 0))) :
    (engineDemux (decodeByte c) (s.advance 1 0)).outcome = s.outcome := by
  have ht (i : Instr) : (engineDemux i (s.advance 1 0)).st = .scan := by rw [engineDemux_frame]; exact hs
  cases hd : decodeByte c with
  | nop =>
    rw [hd] at move
    refine outcome_eq_of_adds ⟨[], 1, false, false⟩ move rfl rfl (by simp [engineDemux])
      (by simp [engineDemux]) nofun fun hu ho => ?_
    rw [remaining_of_nop h hs hp he hc hd, remaining_ctrl (ht _) rfl, hu, ho]
    rfl
  | lit m =>
    rw [hd] at move
    refine outcome_eq_of_adds
      ⟨[], 1, decide ((s.advance 1 0).inRem < litLength m), decide (s.outRem < litLength m)⟩
      move rfl rfl rfl rfl nofun fun hu ho => ?_
    rw [remaining_of_lit h hs hp he hc hd, remaining_copy (ht _) rfl, hu, ho]
    rfl
  | rep m =>
    rw [hd] at move
    refine outcome_eq_of_adds ⟨[], 1, false, false⟩ move rfl rfl (by simp [engineDemux])
      (by simp [engineDemux]) nofun fun hu ho => ?_
    rw [remaining_of_rep h hs hp he hc hd, remaining_rfetch (ht _) rfl, hu, ho]
    rfl

end

/-- The decoder's turn leaves the job's outcome as it is. -/
theorem decoderMove_outcome {s t : State} (h : Inv s) (hm : DecoderMove s t) : t.outcome = s.outcome := by
  have move := hm
  cases hm with
  | quiet => rfl
  | finish hs hb he =>
    rw [State.outcome, State.outcome, remaining_ctrl hs (h.ph_of_boundary hb), callRest_atEnd he,
      remaining_of_not_scan (s := s.finish) nofun]
    rfl
  | nop hs hi he c hc hd =>
    have hp := h.ph_of_unitLevel hi
    refine outcome_eq_of_adds ⟨[], 1, false, false⟩ move rfl rfl (by simp) (by simp) nofun fun hu ho => ?_
    rw [remaining_of_nop h hs hp he hc hd, remaining_ctrl (s := s.advance 1 0) hs hp, hu, ho]
    rfl
  | lit hs hi he c hc m hd u hw => exact outcome_of_lit h hs (h.ph_of_unitLevel hi) he hc hd rfl hw move
  | repMissing hs hi he c hc m hd hv =>
    have hp := h.ph_of_unitLevel hi
    have hnil : s.unread.drop 1 = [] := List.length_eq_zero_iff.mp (by simp [State.inRem]; omega)
    refine outcome_eq_of_adds ⟨[], 1, true, false⟩ move rfl rfl rfl (by simp) nofun fun hu ho => ?_
    rw [remaining_of_rep h hs hp he hc hd, remaining_ctrl (s := (s.advance 1 0).noteTrunc true) hs hp, hu, hnil]
    rfl
  | rep hs hi he c hc m hd hv v hr u hw =>
    exact outcome_of_rep h hs (h.ph_of_unitLevel hi) he hc hd hv hr rfl hw move
  | engineFetch hs hi hp he c hc => exact outcome_of_engineFetch h hs hp he hc move
  | engineCopy hs hi hp hn u hw =>
    obtain ⟨n, hn'⟩ := Nat.exists_eq_succ_of_ne_zero hn
    obtain ⟨-, -, hrd, -⟩ := (engineAgrees_litc hp).mp h.engine
    obtain ⟨b, hb⟩ := Option.isSome_iff_exists.mp ((h.covers hs).input s.rd (by omega))
    refine outcome_eq_of_adds ⟨[b], 1, false, false⟩ move (by simp [hw.rd_eq]) (by simp [hw.wr_eq])
      (by simp [hw.trunc_eq]) (by simp [hw.clamp_eq]) (fun k hk => ?_) fun hu ho => ?_
    · obtain rfl := Nat.lt_one_iff.mp hk
      exact (hw.wrote 0 hk).trans hb
    · rw [remaining_copy hs (by simp [hp, hn]), unread_cons (by omega) hb, hn', callCopy_succ,
        remaining_copy (by exact hw.st_eq.trans hs) (by simp [hw.ph_eq, hp, hw.cnt_eq]), hu, ho]
      simp [hw.cnt_eq, hn']
  | engineMissing hs hi hp hv =>
    have hnil : s.unread = [] := List.length_eq_zero_iff.mp (by simp [State.inRem, hv])
    refine outcome_eq_of_adds ⟨[], 0, true, false⟩ move rfl rfl rfl (by simp) nofun fun hu ho => ?_
    rw [remaining_rfetch hs hp, remaining_ctrl (by exact hs) rfl, hu, hnil]
    rfl
  | engineValue hs hi hp hv v hr =>
    have hrd := h.rdBound
    obtain ⟨hn, -, hwr⟩ := (engineAgrees_rfetch hp).mp h.engine
    refine outcome_eq_of_adds ⟨[], 1, false, decide (s.outRem < s.cnt)⟩ move rfl rfl (by simp) rfl nofun fun hu ho => ?_
    rw [remaining_rfetch hs hp, unread_cons (by omega) hr, callValue, remaining_fill (by exact hs)
      (by simp [repCount, State.outRem]; omega), hu, ho]
    rfl
  | engineEmit hs hi hp hn u hw =>
    obtain ⟨n, hn'⟩ := Nat.exists_eq_succ_of_ne_zero hn
    refine outcome_eq_of_adds ⟨[s.val], 0, false, false⟩ move (by simp [hw.rd_eq]) (by simp [hw.wr_eq])
      (by simp [hw.trunc_eq]) (by simp [hw.clamp_eq]) (fun k hk => ?_) fun hu ho => ?_
    · obtain rfl := Nat.lt_one_iff.mp hk
      exact hw.wrote 0 hk
    · rw [remaining_fill hs (by simp [hp, hn]), hn', callFill_succ,
        remaining_fill (by exact hw.st_eq.trans hs) (by simp [hw.ph_eq, hp, hw.cnt_eq]), hu, ho]
      simp [hw.cnt_eq, hw.val_eq, hn']

end Sys2Proof.Machine
end

section
/-! SUPPORT. A decoder's turn of a sound state completes, and brings the job nearer to its end (R93, R95, R117,
R118). -/

namespace Sys2Proof.Machine

/-! ### The turn completes -/

/-- A decoded unit's meaning completes where the buffers hold the job (R65 to R67, R83). -/
theorem exec_completes {s : State} (h : Covers s) (hrd : s.rd ≤ s.inLen) {i : Instr} (hi : i.wellFormed = true) :
    ∃ t, exec i s = .next t := by
  cases i with
  | nop => exact ⟨s, rfl⟩
  | lit m => exact execLit_completes h m
  | rep m => exact execRep_completes h hrd (by simpa [Instr.wellFormed] using hi)

/-- A fetch below `in_len` finds its byte (R33, R64). -/
theorem fetch_completes {s : State} (h : Covers s) (hrd : s.rd < s.inLen) :
    ∃ c, fetch s = .ok (decodeByte c, s.advance 1 0) := by
  obtain ⟨c, hc⟩ := Option.isSome_iff_exists.mp (h.input s.rd hrd)
  exact ⟨c, fetch_eq_ok.mpr ⟨c, hc, rfl, rfl⟩⟩

theorem memWrite_completes {s : State} (h : Covers s) (hwr : s.wr < s.outCap) (v : Byte) :
    ∃ t, memWrite s s.wr v = .ok t :=
  ⟨_, memWrite_eq_ok.mpr ⟨h.output s.wr hwr, rfl⟩⟩

/-- The unit-level step of a sound state in SCAN completes. -/
theorem unitStep_completes {s : State} (h : Inv s) (hs : s.st = .scan) : ∃ t, unitStep s = .next t := by
  have hcov := h.covers hs
  unfold unitStep
  cases he : s.atEnd with
  | true => exact ⟨_, rfl⟩
  | false =>
    obtain ⟨hlt, -⟩ := h.room (atEnd_eq_false.mp he)
    obtain ⟨c, hf⟩ := fetch_completes hcov hlt
    simp only [hf, Bool.false_eq_true, if_false]
    exact exec_completes (s := s.advance 1 0) ⟨hcov.input, hcov.output⟩ hlt (decodeByte_wellFormed c)

/-- The engine's step of a sound state in SCAN completes, in each phase. -/
theorem engineStep_completes {s : State} (h : Inv s) (hs : s.st = .scan) : ∃ t, engineStep s = .next t := by
  have hcov := h.covers hs
  unfold engineStep
  cases hp : s.ph with
  | ctrl =>
    cases he : s.atEnd with
    | true => exact ⟨s.finish, by simp [engineCtrl, he]⟩
    | false =>
      obtain ⟨c, hf⟩ := fetch_completes hcov (h.room (atEnd_eq_false.mp he)).1
      exact ⟨engineDemux (decodeByte c) (s.advance 1 0), by simp [engineCtrl, he, hf]⟩
  | litc =>
    obtain ⟨hn, -, hrd, hwr⟩ := (engineAgrees_litc hp).mp h.engine
    obtain ⟨b, hb⟩ := Option.isSome_iff_exists.mp (hcov.input s.rd (by omega))
    obtain ⟨t, ht⟩ := memWrite_completes hcov (by omega) b
    exact ⟨(t.advance 1 1).countDown, by simp [engineLitc, memRead_eq_ok.mpr hb, ht]; omega⟩
  | rfetch =>
    by_cases hv : s.rd = s.inLen
    · exact ⟨_, by simp [engineRfetch, valueMissing, hv]; rfl⟩
    · have hrd := h.rdBound
      obtain ⟨v, hr⟩ := Option.isSome_iff_exists.mp (hcov.input s.rd (by omega))
      exact ⟨_, by simp [engineRfetch, valueMissing, hv, takeValue_eq_ok.mpr ⟨hr, rfl⟩]; rfl⟩
  | remit =>
    obtain ⟨hn, -, hwr⟩ := (engineAgrees_remit hp).mp h.engine
    obtain ⟨t, ht⟩ := memWrite_completes hcov (by omega) s.val
    exact ⟨(t.advance 0 1).countDown, by simp [engineRemit, ht]; omega⟩

/-- The decoder's turn of a sound state completes (R95, R118). -/
theorem decoderTurn_completes {s : State} (h : Inv s) : ∃ t, decoderTurn s = .next t := by
  unfold decoderTurn
  cases hs : s.st with
  | idle | done => exact ⟨s, rfl⟩
  | scan =>
    cases s.impl with
    | unitLevel => exact unitStep_completes h hs
    | byteLevel => exact engineStep_completes h hs

/-! ### The bound on a job's turns (R93) -/

/-- At most how many decoder's turns lead to DONE: one for each byte left to read or to store, and END. -/
def State.stepsLeft (s : State) : Nat :=
  if s.st ≠ .scan then 0 else if s.ph = .ctrl ∧ s.atEnd then 1 else s.inRem + s.outRem + 1

theorem stepsLeft_le (s : State) : s.stepsLeft ≤ s.inRem + s.outRem + 1 := by
  unfold State.stepsLeft
  split
  · omega
  · split <;> omega

/-- A job is over when no turn is left. -/
theorem stepsLeft_eq_zero {s : State} : s.stepsLeft = 0 ↔ s.st ≠ .scan := by
  unfold State.stepsLeft
  split
  · simp_all
  · split <;> simp_all

/-- A turn inside a job moves a cursor, but for the one that finds a value byte missing (R69, R89). -/
theorem decoderMove_progress {s t : State} (h : Inv s) (hm : DecoderMove s t) (hs : s.st = .scan) (ht : t.st = .scan) :
    ¬(s.ph = .ctrl ∧ s.atEnd) ∧
      (s.rd + s.wr < t.rd + t.wr ∨ (s.outRem ≠ 0 ∧ t.ph = .ctrl ∧ t.atEnd)) := by
  have away (he : s.wr ≠ s.outCap ∧ s.rd ≠ s.inLen) : ¬(s.ph = .ctrl ∧ s.atEnd) := by
    simp [atEnd_eq_false.mpr he]
  cases hm with
  | quiet hn => exact absurd hs hn
  | finish => cases ht
  | nop _ _ he | repMissing _ _ he => exact ⟨away he, .inl (by simp)⟩
  | lit _ _ he _ _ _ _ _ hw => exact ⟨away he, .inl (by simp [hw.rd_eq, hw.wr_eq]; omega)⟩
  | rep _ _ he _ _ _ _ _ _ _ _ hw => exact ⟨away he, .inl (by simp [hw.rd_eq, hw.wr_eq]; omega)⟩
  | engineFetch _ _ _ he => exact ⟨away he, .inl (by rw [engineDemux_frame]; simp)⟩
  | engineCopy _ _ hp _ _ hw => exact ⟨by simp [hp], .inl (by simp [hw.rd_eq, hw.wr_eq]; omega)⟩
  | engineMissing _ _ hp hv =>
    have := (engineAgrees_rfetch hp).mp h.engine
    exact ⟨by simp [hp], .inr ⟨by simp [State.outRem]; omega, rfl, atEnd_eq_true.mpr (.inr hv)⟩⟩
  | engineValue _ _ hp => exact ⟨by simp [hp], .inl (by simp)⟩
  | engineEmit _ _ hp _ _ hw => exact ⟨by simp [hp], .inl (by simp [hw.rd_eq, hw.wr_eq])⟩

/-- Each turn of a running job brings it at least one nearer to its end. -/
theorem decoderMove_stepsLeft {s t : State} (h : Inv s) (hm : DecoderMove s t) (hs : s.st = .scan) :
    t.stepsLeft < s.stepsLeft := by
  by_cases ht : t.st = .scan
  · obtain ⟨hn, hp⟩ := decoderMove_progress h hm hs ht
    have hsl : s.stepsLeft = s.inRem + s.outRem + 1 := by simp [State.stepsLeft, hs, hn]
    rcases hp with hp | ⟨hr, hpe⟩
    · have := stepsLeft_le t
      obtain ⟨hrd, hwr⟩ := decoderMove_bounds h hm
      rw [State.inRem, State.outRem, hm.inLen_eq, hm.outCap_eq] at this
      rw [State.inRem, State.outRem] at hsl
      omega
    · have : t.stepsLeft = 1 := by simp [State.stepsLeft, ht, hpe]
      omega
  · rw [stepsLeft_eq_zero.mpr ht, Nat.pos_iff_ne_zero, ne_eq, stepsLeft_eq_zero]
    exact not_not.mpr hs

end Sys2Proof.Machine
end

section
/-! SUPPORT. A whole job, on either implementation, computes the decode call (R73, R77, R93). -/

namespace Sys2Proof.Machine

/-- `t` comes after `s` in a run of decoder's turns: the same job with the same outcome, no byte of OUT from `t.wr` on
written. -/
structure Continues (s t : State) : Prop where
  inv     : Inv t
  input   : t.input = s.input
  inLen   : t.inLen = s.inLen
  outCap  : t.outCap = s.outCap
  offsets : t.output.cells.map Prod.fst = s.output.cells.map Prod.fst
  wr      : s.wr ≤ t.wr
  kept    : ∀ a, t.wr ≤ a → Mem.read t.output.cells a = Mem.read s.output.cells a
  outcome : t.outcome = s.outcome

theorem Continues.refl {s : State} (h : Inv s) : Continues s s :=
  ⟨h, rfl, rfl, rfl, rfl, Nat.le_refl _, fun _ _ => rfl, rfl⟩

theorem Continues.trans {s u t : State} (h : Continues s u) (h' : Continues u t) : Continues s t :=
  ⟨h'.inv, h'.input.trans h.input, h'.inLen.trans h.inLen, h'.outCap.trans h.outCap, h'.offsets.trans h.offsets,
    Nat.le_trans h.wr h'.wr, fun a ha => (h'.kept a ha).trans (h.kept a (Nat.le_trans h'.wr ha)),
    h'.outcome.trans h.outcome⟩

/-- One turn. -/
theorem DecoderMove.continues {s t : State} (h : Inv s) (hm : DecoderMove s t) : Continues s t :=
  ⟨decoderMove_inv h hm, hm.input_eq, hm.inLen_eq, hm.outCap_eq, hm.output_shape.2, (decoderMove_monotone hm).2.1,
    fun _ ha => hm.kept (.inr ha), decoderMove_outcome h hm⟩

/-- With the decoder alone, a job is over after as many turns as R93's bound allows, or more. -/
theorem runSteps_to_done {s : State} {k : Nat} (h : Inv s) (hsch : s.schedule = []) (hs : s.st ≠ .idle)
    (hk : s.stepsLeft ≤ k) : ∃ t, runSteps k s = .next t ∧ t.st = .done ∧ Continues s t := by
  induction k generalizing s with
  | zero =>
    have hn := stepsLeft_eq_zero.mp (Nat.le_zero.mp hk)
    refine ⟨s, rfl, ?_, .refl h⟩
    cases hf : s.st <;> simp_all
  | succ k ih =>
    obtain ⟨u, hu⟩ := decoderTurn_completes h
    have hm := decoderTurn_next hu
    have hc := hm.continues h
    have hleft : u.st ≠ .idle ∧ u.stepsLeft ≤ k := by
      obtain ⟨hn, rfl⟩ | ⟨hf, -, -, rfl⟩ | ⟨hf, ht⟩ := decoderMove_kinds hm
      · exact ⟨hs, by rw [stepsLeft_eq_zero.mpr hn]; omega⟩
      · exact ⟨nofun, by have := decoderMove_stepsLeft h hm hf; omega⟩
      · exact ⟨by simp [ht], by have := decoderMove_stepsLeft h hm hf; omega⟩
    obtain ⟨t, hrun, hdone, hct⟩ := ih hc.inv (hm.schedule_eq.trans hsch) hleft.1 hleft.2
    exact ⟨t, by rw [runSteps_succ_of_next k ((step_of_nil hsch).trans hu), hrun], hdone, hc.trans hct⟩

/-- The outcome of a job that has just been started is the decode call's (R73). -/
theorem JobStarted.outcome_eq {s : State} {bytes : List Byte} (h : JobStarted s)
    (hb : Mem.readRun s.input.cells s.inLen 0 = some bytes) : s.outcome = decodeCall bytes s.inLen s.outCap := by
  have hso : s.soFar = .nothing := by
    simp [State.soFar, CallResult.nothing, h.rd, h.wr, h.trunc, h.clamp]
  have hun : s.unread = bytes := by
    rw [State.unread, h.rd, State.inRem, h.rd]; exact Mem.bytesAt_of_readRun hb
  rw [State.outcome, hso, CallResult.nothing_andThen, remaining_ctrl h.st h.ph, hun, State.outRem, h.wr,
    decodeCall_eq_callRest ((Mem.readRun_eq_some_iff _ _ _ _).mp hb).1, Nat.sub_zero]

/-- Settles O52: the decoder's turns leave the job's outcome as it is; at the start it is the decode call's result, and
in DONE it is what the job has produced. -/
theorem jobComputesTheDecodeCall : Obligations.JobComputesTheDecodeCall := by
  intro s bytes h hsch hb
  have hsteps : s.stepsLeft ≤ s.inLen + s.outCap + 1 := by
    have := stepsLeft_le s
    rwa [State.inRem, State.outRem, h.rd, h.wr] at this
  obtain ⟨t, hrun, hdone, hc⟩ := runSteps_to_done h.inv hsch (by simp [h.st]) hsteps
  have hr : decodeCall bytes s.inLen s.outCap = t.soFar := by
    rw [← h.outcome_eq hb, ← hc.outcome, State.outcome, remaining_of_not_scan (by simp [hdone]),
      CallResult.andThen_nothing]
  have hsome (j : Nat) (hj : j < t.wr) : (Mem.read t.output.cells (0 + j)).isSome := by
    have := hc.inv.wrBound
    rw [hc.outCap] at this
    rw [Mem.isSome_read_iff, hc.offsets, ← Mem.isSome_read_iff]
    exact (h.inv.covers h.st).output _ (by omega)
  rw [hr]
  exact ⟨t, hrun, hdone, by simp [State.soFar], rfl, rfl, rfl, Mem.readRun_eq_bytesAt hsome, hc.kept, hc.input,
    hc.inLen, hc.outCap⟩

end Sys2Proof.Machine
end

section
/-! SUPPORT. What each kind of decoder's turn answers, as one equation per kind (R63, R64, R68, R87 to R90). -/

namespace Sys2Proof.Machine

variable {s : State}

/-! ### The turn -/

theorem decoderTurn_quiet (hs : s.st ≠ .scan) : decoderTurn s = .next s := by
  unfold decoderTurn
  cases hf : s.st with
  | scan => exact absurd hf hs
  | idle | done => rfl

theorem decoderTurn_unitLevel (hs : s.st = .scan) (hi : s.impl = .unitLevel) : decoderTurn s = unitStep s := by
  simp [decoderTurn, hs, hi]

theorem decoderTurn_byteLevel (hs : s.st = .scan) (hi : s.impl = .byteLevel) : decoderTurn s = engineStep s := by
  simp [decoderTurn, hs, hi]

/-- END, on either implementation (R63, R87). -/
theorem decoderTurn_end (hs : s.st = .scan) (hb : s.impl = .unitLevel ∨ s.ph = .ctrl)
    (he : s.wr = s.outCap ∨ s.rd = s.inLen) : decoderTurn s = .next s.finish := by
  have he := atEnd_eq_true.mpr he
  cases hi : s.impl with
  | unitLevel => rw [decoderTurn_unitLevel hs hi]; simp [unitStep, he]
  | byteLevel =>
    have hp : s.ph = .ctrl := hb.resolve_left (by simp [hi])
    rw [decoderTurn_byteLevel hs hi]; simp [engineStep, engineCtrl, hp, he]

/-- The unit-level machine runs the unit at `rd` (R64). -/
theorem decoderTurn_unit (hs : s.st = .scan) (hi : s.impl = .unitLevel) (he : s.wr ≠ s.outCap ∧ s.rd ≠ s.inLen)
    {c : Byte} (hc : Mem.read s.input.cells s.rd = some c) :
    decoderTurn s = exec (decodeByte c) (s.advance 1 0) := by
  rw [decoderTurn_unitLevel hs hi]
  simp [unitStep, atEnd_eq_false.mpr he, fetch_eq_ok.mpr ⟨c, hc, rfl, rfl⟩]

/-- The engine's CTRL step demultiplexes the unit at `rd` (R87). -/
theorem decoderTurn_ctrl (hs : s.st = .scan) (hi : s.impl = .byteLevel) (hp : s.ph = .ctrl)
    (he : s.wr ≠ s.outCap ∧ s.rd ≠ s.inLen) {c : Byte} (hc : Mem.read s.input.cells s.rd = some c) :
    decoderTurn s = .next (engineDemux (decodeByte c) (s.advance 1 0)) := by
  rw [decoderTurn_byteLevel hs hi]
  simp [engineStep, engineCtrl, hp, atEnd_eq_false.mpr he, fetch_eq_ok.mpr ⟨c, hc, rfl, rfl⟩]

theorem decoderTurn_litc (hs : s.st = .scan) (hi : s.impl = .byteLevel) (hp : s.ph = .litc) :
    decoderTurn s = engineLitc s := by
  rw [decoderTurn_byteLevel hs hi]; simp [engineStep, hp]

/-- The engine's RFETCH step at the end of the input (R89). -/
theorem decoderTurn_rfetch_missing (hs : s.st = .scan) (hi : s.impl = .byteLevel) (hp : s.ph = .rfetch)
    (hv : s.rd = s.inLen) : decoderTurn s = .next { s.noteTrunc true with cnt := 0, ph := .ctrl } := by
  rw [decoderTurn_byteLevel hs hi]; simp [engineStep, engineRfetch, hp, valueMissing, hv]

/-- The engine's RFETCH step with a value byte to fetch (R89). -/
theorem decoderTurn_rfetch_value (hs : s.st = .scan) (hi : s.impl = .byteLevel) (hp : s.ph = .rfetch)
    (hv : s.rd ≠ s.inLen) {v : Byte} (hr : Mem.read s.input.cells s.rd = some v) :
    decoderTurn s = .next { (s.advance 1 0).noteRep s.cnt with val := v, cnt := repCount s s.cnt, ph := .remit } := by
  rw [decoderTurn_byteLevel hs hi]
  simp [engineStep, engineRfetch, hp, valueMissing, hv, takeValue_eq_ok.mpr ⟨hr, rfl⟩, repCount, State.outRem]

theorem decoderTurn_remit (hs : s.st = .scan) (hi : s.impl = .byteLevel) (hp : s.ph = .remit) :
    decoderTurn s = engineRemit s := by
  rw [decoderTurn_byteLevel hs hi]; simp [engineStep, hp]

/-! ### The steps that store bytes -/

theorem engineLitc_eq_next {t : State} : engineLitc s = .next t ↔ s.cnt ≠ 0 ∧ ∃ b u,
    Mem.read s.input.cells s.rd = some b ∧ memWrite s s.wr b = .ok u ∧ t = (u.advance 1 1).countDown := by
  unfold engineLitc
  split
  · simp_all
  · simp only [← memRead_eq_ok]
    cases memRead s s.rd with
    | error f => simp
    | ok b => cases hw : memWrite s s.wr b <;> simp_all [eq_comm (a := t)]

theorem engineRemit_eq_next {t : State} : engineRemit s = .next t ↔ s.cnt ≠ 0 ∧ ∃ u,
    memWrite s s.wr s.val = .ok u ∧ t = (u.advance 0 1).countDown := by
  unfold engineRemit
  split
  · simp_all
  · cases memWrite s s.wr s.val <;> simp_all [eq_comm (a := t)]

theorem exec_lit_eq_next {m : RunField} {t : State} : exec (.lit m) s = .next t ↔ ∃ u,
    copyRun (litCount s (litLength m)) s.rd s.wr (s.noteLit (litLength m)) = .ok u ∧
      t = u.advance (litCount s (litLength m)) (litCount s (litLength m)) := by
  simp only [exec, execLit]
  split <;> simp_all [eq_comm (a := t)]

/-- REP with no value byte (R66). -/
theorem exec_rep_missing {m : RunField} (hm : m ≠ 0#7) (hv : s.rd = s.inLen) :
    exec (.rep m) s = .next (s.noteTrunc true) := by
  simp [exec, execRep, hm, valueMissing, hv]

/-- REP with its value byte (R66). -/
theorem exec_rep_value {m : RunField} (hm : m ≠ 0#7) (hv : s.rd ≠ s.inLen) {v : Byte}
    (hr : Mem.read s.input.cells s.rd = some v) : exec (.rep m) s = repEmit (repLength m) v (s.advance 1 0) := by
  simp [exec, execRep, hm, valueMissing, hv, takeValue_eq_ok.mpr ⟨hr, rfl⟩]

theorem repEmit_eq_next {len : Nat} {v : Byte} {t : State} : repEmit len v s = .next t ↔ ∃ u,
    fillRun (repCount s len) s.wr v (s.noteRep len) = .ok u ∧ t = u.advance 0 (repCount s len) := by
  simp only [repEmit]
  split <;> simp_all [eq_comm (a := t)]

/-- A unit's body takes `rd` forward only (R18). -/
theorem exec_rd_le {i : Instr} {t : State} (h : exec i s = .next t) : s.rd ≤ t.rd := by
  cases i with
  | nop => cases h; exact Nat.le_refl _
  | lit m =>
    obtain ⟨u, hw, rfl⟩ := execLit_next h
    simp [hw.rd_eq]
  | rep m =>
    obtain ⟨-, ⟨-, rfl⟩ | ⟨-, v, u, -, hw, rfl⟩⟩ := execRep_next h
    · exact Nat.le_refl _
    · simp [hw.rd_eq]

end Sys2Proof.Machine
end

section
/-! SUPPORT. The decoder over other buffers: what a turn does depends on the IN bytes it moves `rd` past, and not on
what stands in OUT (R35 to R37). -/

namespace Sys2Proof.Machine

/-- Two memories in canonical form with the same offsets and the same bytes are the same. -/
theorem Mem.eq_of_read_eq {m m' : List Host.Cell} (hwf : Mem.wf m) (hk : m'.map Prod.fst = m.map Prod.fst)
    (hr : ∀ a, Mem.read m' a = Mem.read m a) : m' = m := by
  induction m generalizing m' with
  | nil => simpa using hk
  | cons c m ih =>
    cases m' with
    | nil => simp at hk
    | cons c' m' =>
      obtain ⟨k, b⟩ := c
      obtain ⟨k', b'⟩ := c'
      obtain ⟨rfl, hkeys⟩ : k' = k ∧ m'.map Prod.fst = m.map Prod.fst := by simpa using hk
      obtain ⟨hnew, hwf⟩ := List.pairwise_cons.mp hwf
      have hb : b' = b := by simpa [Mem.read] using hr k'
      have absent {l : List Host.Cell} (hl : l.map Prod.fst = m.map Prod.fst) : Mem.read l k' = none := by
        rw [← Option.not_isSome_iff_eq_none, Mem.isSome_read_iff, hl]
        exact fun hmem => Nat.lt_irrefl _ (hnew k' hmem)
      have htail : m' = m := ih hwf hkeys fun a => by
        by_cases ha : k' = a
        · rw [← ha, absent hkeys, absent rfl]
        · simpa [Mem.read, ha] using hr a
      rw [hb, htail]

theorem Buffer.eq_of_read_eq {b b' : Buffer} (hwf : Mem.wf b.cells) (hb : b'.base = b.base)
    (hk : b'.cells.map Prod.fst = b.cells.map Prod.fst)
    (hr : ∀ a, Mem.read b'.cells a = Mem.read b.cells a) : b' = b := by
  have hc := Mem.eq_of_read_eq hwf hk hr
  cases b; cases b'; simp_all

/-- Two runs of writes at the same offsets with the same bytes leave the same bytes there. -/
theorem Wrote.same_bytes {s t s' t' : State} {dst n : Nat} {f f' : Nat → Option Byte} (h : Wrote s t dst n f)
    (h' : Wrote s' t' dst n f') (hf : ∀ k, k < n → f' k = f k) {a : Nat} (h1 : dst ≤ a) (h2 : a < dst + n) :
    Mem.read t'.output.cells a = Mem.read t.output.cells a := by
  obtain ⟨k, rfl⟩ := Nat.exists_eq_add_of_le h1
  rw [h.wrote k (by omega), h'.wrote k (by omega), hf k (by omega)]

/-- `s` with other buffers. -/
def State.withBuffers (s : State) (i o : Buffer) : State := { s with input := i, output := o }

/-- The result `r` is the answer `t` but for the buffers: IN is `i'`, and OUT is one that holds the same bytes as in `t`
at the offsets from `w` to the write cursor. -/
def AnswersAlike (r : Result) (t : State) (i' : Buffer) (w : Nat) : Prop :=
  ∃ o' : Buffer, r = .next (t.withBuffers i' o') ∧
    ∀ a, w ≤ a → a < t.wr → Mem.read o'.cells a = Mem.read t.output.cells a

/-- The answer of a step that stores no byte. -/
theorem AnswersAlike.of_no_store {r : Result} {t : State} {i' : Buffer} (o : Buffer)
    (h : r = .next (t.withBuffers i' o)) : AnswersAlike r t i' t.wr :=
  ⟨o, h, fun _ h1 h2 => absurd h2 (Nat.not_lt.mpr h1)⟩

section
variable {s t : State} {i' o : Buffer} (hk : o.cells.map Prod.fst = s.output.cells.map Prod.fst)
include hk

/-! ### The runs of writes -/

theorem copyRun_other_buffers {n src dst : Nat}
    (ha : ∀ a, src ≤ a → a < src + n → Mem.read i'.cells a = Mem.read s.input.cells a)
    (h : copyRun n src dst s = .ok t) :
    ∃ o', copyRun n src dst (s.withBuffers i' o) = .ok (t.withBuffers i' o') ∧
      ∀ a, dst ≤ a → a < dst + n → Mem.read o'.cells a = Mem.read t.output.cells a := by
  have hin := copyRun_frame (fun u => { u with input := i' }) (fun _ => rfl) (fun _ _ => rfl) n src dst s
    fun u hu a h1 h2 => by rw [hu]; exact ha a h1 h2
  rw [h] at hin
  obtain ⟨o', ho'⟩ := copyRun_other_output (s := { s with input := i' }) (o := o) hk hin
  exact ⟨o', ho', fun _ => (copyRun_ok h).same_bytes (copyRun_ok ho') fun k _ => ha _ (by omega) (by omega)⟩

theorem fillRun_other_buffers {n dst : Nat} {v : Byte} (h : fillRun n dst v s = .ok t) :
    ∃ o', fillRun n dst v (s.withBuffers i' o) = .ok (t.withBuffers i' o') ∧
      ∀ a, dst ≤ a → a < dst + n → Mem.read o'.cells a = Mem.read t.output.cells a := by
  have hin := fillRun_frame (fun u => { u with input := i' }) (fun _ => rfl) (fun _ _ => rfl) n dst v s
  rw [h] at hin
  obtain ⟨o', ho'⟩ := fillRun_other_output (s := { s with input := i' }) (o := o) hk hin
  exact ⟨o', ho', fun _ => (fillRun_ok h).same_bytes (fillRun_ok ho') fun _ _ => rfl⟩

theorem memWrite_other_buffers {j : Nat} {v : Byte} (h : memWrite s j v = .ok t) :
    ∃ o', memWrite (s.withBuffers i' o) j v = .ok (t.withBuffers i' o') ∧
      ∀ a, j ≤ a → a < j + 1 → Mem.read o'.cells a = Mem.read t.output.cells a := by
  have hin : memWrite { s with input := i' } j v = .ok { t with input := i' } := by
    obtain ⟨hs, rfl⟩ := memWrite_eq_ok.mp h
    exact memWrite_eq_ok.mpr ⟨hs, rfl⟩
  obtain ⟨o', ho', -⟩ := memWrite_other_output (s := { s with input := i' }) (o := o) hk hin
  exact ⟨o', ho', fun _ => (wrote_one (f := fun _ => some v) h rfl).same_bytes (wrote_one ho' rfl) fun _ _ => rfl⟩

/-! ### The steps -/

/-- The engine's REMIT step over other buffers (R90). -/
theorem engineRemit_other_buffers (h : engineRemit s = .next t) :
    AnswersAlike (engineRemit (s.withBuffers i' o)) t i' s.wr := by
  obtain ⟨hn, u, hu, rfl⟩ := engineRemit_eq_next.mp h
  obtain ⟨o', ho', hst⟩ := memWrite_other_buffers (i' := i') (o := o) hk hu
  exact ⟨o', engineRemit_eq_next.mpr ⟨hn, _, ho', rfl⟩, fun a h1 h2 =>
    hst a h1 (by simpa [(wrote_one (f := fun _ => some s.val) hu rfl).wr_eq] using h2)⟩

variable (ha : ∀ a, s.rd ≤ a → a < t.rd → Mem.read i'.cells a = Mem.read s.input.cells a)
include ha

/-- The body of a unit over other buffers (R65 to R67). -/
theorem exec_other_buffers {i : Instr} (h : exec i s = .next t) :
    AnswersAlike (exec i (s.withBuffers i' o)) t i' s.wr := by
  cases i with
  | nop => cases h; exact .of_no_store o rfl
  | lit m =>
    obtain ⟨u, hu, rfl⟩ := exec_lit_eq_next.mp h
    have hw := copyRun_ok hu
    obtain ⟨o', ho', hst⟩ := copyRun_other_buffers (s := s.noteLit (litLength m)) (i' := i') hk
      (fun a h1 h2 => ha a h1 (by simpa [hw.rd_eq] using h2)) hu
    exact ⟨o', exec_lit_eq_next.mpr ⟨_, ho', rfl⟩, fun a h1 h2 => hst a h1 (by simpa [hw.wr_eq] using h2)⟩
  | rep m =>
    obtain ⟨hm, ⟨hv, rfl⟩ | ⟨hv, v, w, hr, hw, rfl⟩⟩ := execRep_next h
    · exact .of_no_store o (exec_rep_missing hm hv)
    · have hr' : Mem.read i'.cells s.rd = some v := (ha _ (Nat.le_refl _) (by simp [hw.rd_eq])).trans hr
      rw [exec_rep_value hm hv hr] at h
      rw [exec_rep_value (s := s.withBuffers i' o) hm hv hr']
      obtain ⟨u, hu, ht⟩ := repEmit_eq_next.mp h
      obtain ⟨o', ho', hst⟩ := fillRun_other_buffers (s := (s.advance 1 0).noteRep (repLength m)) (i' := i') hk hu
      rw [ht]
      exact ⟨o', repEmit_eq_next.mpr ⟨_, ho', rfl⟩, fun a h1 h2 =>
        hst a h1 (by simpa [(fillRun_ok hu).wr_eq] using h2)⟩

/-- The engine's LITC step over other buffers (R88). -/
theorem engineLitc_other_buffers (h : engineLitc s = .next t) :
    AnswersAlike (engineLitc (s.withBuffers i' o)) t i' s.wr := by
  obtain ⟨hn, b, u, hb, hu, rfl⟩ := engineLitc_eq_next.mp h
  have hw := wrote_one (f := fun _ => some b) hu rfl
  obtain ⟨o', ho', hst⟩ := memWrite_other_buffers (i' := i') (o := o) hk hu
  have hb' : Mem.read i'.cells s.rd = some b := (ha _ (Nat.le_refl _) (by simp [hw.rd_eq])).trans hb
  exact ⟨o', engineLitc_eq_next.mpr ⟨hn, b, _, hb', ho', rfl⟩, fun a h1 h2 =>
    hst a h1 (by simpa [hw.wr_eq] using h2)⟩

/-- The decoder's turn over other buffers: IN agrees on the bytes that `rd` passes, OUT has the same offsets. -/
theorem decoderTurn_other_buffers (h : decoderTurn s = .next t) :
    AnswersAlike (decoderTurn (s.withBuffers i' o)) t i' s.wr := by
  cases decoderTurn_next h with
  | quiet hs => exact .of_no_store o (decoderTurn_quiet hs)
  | finish hs hb he => exact .of_no_store o (decoderTurn_end hs hb he)
  | nop hs hi he c hc | lit hs hi he c hc | repMissing hs hi he c hc | rep hs hi he c hc =>
    rw [decoderTurn_unit hs hi he hc] at h
    have hc' : Mem.read i'.cells s.rd = some c := (ha _ (Nat.le_refl _) (exec_rd_le h)).trans hc
    rw [decoderTurn_unit (s := s.withBuffers i' o) hs hi he hc']
    exact exec_other_buffers (s := s.advance 1 0) hk (fun a h1 => ha a (Nat.le_of_succ_le h1)) h
  | engineFetch hs hi hp he c hc =>
    rw [engineDemux_frame] at ha
    have hc' : Mem.read i'.cells s.rd = some c := (ha _ (Nat.le_refl _) (Nat.lt_succ_self _)).trans hc
    rw [decoderTurn_ctrl (s := s.withBuffers i' o) hs hi hp he hc']
    cases decodeByte c <;> exact .of_no_store o rfl
  | engineCopy hs hi hp =>
    rw [decoderTurn_litc hs hi hp] at h
    rw [decoderTurn_litc (s := s.withBuffers i' o) hs hi hp]
    exact engineLitc_other_buffers hk ha h
  | engineMissing hs hi hp hv => exact .of_no_store o (decoderTurn_rfetch_missing hs hi hp hv)
  | engineValue hs hi hp hv v hr =>
    have hr' : Mem.read i'.cells s.rd = some v := (ha _ (Nat.le_refl _) (Nat.lt_succ_self _)).trans hr
    exact .of_no_store o (decoderTurn_rfetch_value (s := s.withBuffers i' o) hs hi hp hv hr')
  | engineEmit hs hi hp =>
    rw [decoderTurn_remit hs hi hp] at h
    rw [decoderTurn_remit (s := s.withBuffers i' o) hs hi hp]
    exact engineRemit_other_buffers hk h

end

/-! ### The statements -/

/-- Settles O31: over another OUT the turn is the same but for OUT (`decoderTurn_other_buffers`), and it keeps every
byte there that `wr` does not pass (`DecoderMove.kept`). -/
theorem decoderNeitherWritesInNorReadsOut : Obligations.DecoderNeitherWritesInNorReadsOut := by
  intro s t o hk h
  have hin := (decoderTurn_next h).input_eq
  obtain ⟨o', ho', hst⟩ := decoderTurn_other_buffers (i' := t.input) hk (fun _ _ _ => by rw [hin]) h
  have hs : s.withBuffers t.input o = { s with output := o } := by rw [hin]; rfl
  rw [hs] at ho'
  have hm := decoderTurn_next ho'
  exact ⟨hin, o', ho', hm.output_shape.1, hst, fun _ => hm.kept⟩

/-- Settles O32: over another IN the turn is the same but for IN and perhaps OUT (`decoderTurn_other_buffers`), and the
two OUT are one, since they have the same offsets and the same bytes. -/
theorem decoderReadsOnlyTheBytesPassed : Obligations.DecoderReadsOnlyTheBytesPassed := by
  intro s t i' hinv h ha
  have hm := decoderTurn_next h
  obtain ⟨o', ho', hst⟩ := decoderTurn_other_buffers (o := s.output) rfl ha h
  have hm' := decoderTurn_next ho'
  obtain ⟨hbase, hkeys⟩ := hm.output_shape
  obtain ⟨hbase', hkeys'⟩ : o'.base = s.output.base ∧ o'.cells.map Prod.fst = s.output.cells.map Prod.fst :=
    hm'.output_shape
  have ho : o' = t.output := by
    refine Buffer.eq_of_read_eq (Mem.wf_of_full (decoderMove_inv hinv hm).outputFull) (hbase'.trans hbase.symm)
      (hkeys'.trans hkeys.symm) fun a => ?_
    by_cases hin : s.wr ≤ a ∧ a < t.wr
    · exact hst a hin.1 hin.2
    · have hout : a < s.wr ∨ t.wr ≤ a := by omega
      exact (hm'.kept hout).trans (hm.kept hout).symm
  rw [ho] at ho'
  exact ⟨(decoderMove_bounds hinv hm).1, ho'⟩

/-- Settles O33: the cursor moves forward within its bound, and the bytes it does not pass are kept. -/
theorem decoderWritesOnlyAtTheCursor : Obligations.DecoderWritesOnlyAtTheCursor := by
  intro s t hinv h
  have hm := decoderTurn_next h
  obtain ⟨-, hwr, -, -⟩ := decoderMove_monotone hm
  exact ⟨hwr, (decoderMove_bounds hinv hm).2, hm.output_shape.1, fun _ => hm.kept⟩

end Sys2Proof.Machine
end

section
/-! SUPPORT. What the host sees of OUT, and what the blocks of a system see of each other (R47, R51, R106, R113). -/

namespace Sys2Proof.Machine

/-- Settles O45: the read completes in the two ways of `HostMove`, as the result is pending or not. -/
theorem outputReadsAreFreeWhileBusy : Obligations.OutputReadsAreFreeWhileBusy := by
  intro s j b hb
  constructor
  · intro hp
    exact hostTurn_eq_next.mpr (.readOutFree j (resultPending_eq_true.mpr hp) (by simp [hb]))
  · intro hp
    exact hostTurn_eq_next.mpr (.readOut j b (resultPending_eq_false.mpr hp) hb)

/-- A system's step is the machine's step of block `k`, and only that block's state is replaced (R51, R106). -/
theorem System.step_next {sys sys' : System} {k : Nat} (h : sys.step k = .next sys') :
    ∃ s t, sys.instances[k]? = some s ∧ Machine.step s = .next t ∧ sys' = ⟨sys.instances.set k t⟩ := by
  unfold System.step at h
  split at h
  · cases h
  · rename_i s hs
    split at h
    · cases h
    · split at h
      · rename_i t ht
        cases h
        exact ⟨s, t, hs, ht, rfl⟩
      all_goals cases h

/-- Settles O56: a system's step writes only place `k` of its list. -/
theorem instancesShareNoState : Obligations.InstancesShareNoState := by
  intro sys sys' k h
  obtain ⟨s, t, hs, ht, rfl⟩ := System.step_next h
  obtain ⟨hlt, -⟩ := List.getElem?_eq_some_iff.mp hs
  exact ⟨s, t, hs, ht, List.getElem?_set_self hlt, List.length_set,
    fun j hj => List.getElem?_set_ne (Ne.symm hj)⟩

end Sys2Proof.Machine
end

section
/-! SUPPORT. The control byte and the class decode (R53 to R56, R60). -/

namespace Sys2Proof

/-- A control unit is decoded from its control byte. -/
theorem decodeByte_encodeByte {i : Instr} (h : i.wellFormed = true) : decodeByte (encodeByte i) = i := by
  cases i with
  | nop => decide
  | lit m => exact decodeByte_encode_lit m
  | rep m => exact decodeByte_encode_rep m (by simpa [Instr.wellFormed] using h)

/-- Settles O5: the two round trips of the control byte; the bytes that follow it are left as they are. -/
theorem decodeAndEncodeAgree : Obligations.DecodeAndEncodeAgree := by
  constructor
  · intro i rest h
    simp [encode, decode, decodeByte_encodeByte h]
  · intro c rest
    exact ⟨decodeByte c, rfl, decodeByte_wellFormed c, by rw [encode, encodeByte_decodeByte]⟩

theorem toNat_encodeByte_lit : ∀ m : RunField, (encodeByte (.lit m)).toNat = m.toNat := by decide

theorem toNat_encodeByte_rep : ∀ m : RunField, (encodeByte (.rep m)).toNat = 128 + m.toNat := by decide

/-- The control byte of a LIT is its declared length less 1 (R53). -/
theorem encodeByte_lit (m : RunField) : encodeByte (.lit m) = BitVec.ofNat 8 (litLength m - 1) := by
  apply BitVec.eq_of_toNat_eq
  rw [toNat_encodeByte_lit, BitVec.toNat_ofNat, litLength]
  omega

/-- The control byte of a REP is 257 less its declared length (R54). -/
theorem encodeByte_rep {m : RunField} (h : m ≠ 0#7) : encodeByte (.rep m) = BitVec.ofNat 8 (257 - repLength m) := by
  have hb := repLength_bounds h
  apply BitVec.eq_of_toNat_eq
  rw [toNat_encodeByte_rep, BitVec.toNat_ofNat]
  simp only [repLength] at hb ⊢
  omega

theorem toInt_encodeByte_rep (m : RunField) : (encodeByte (.rep m)).toInt = m.toNat - 128 := by
  rw [BitVec.toInt_eq_toNat_cond, toNat_encodeByte_rep]
  omega

/-- Settles O3: the control byte is `128 + zext_7(m)` unsigned and `zext_7(m) - 128` signed. -/
theorem repeatLengthFormsAgree : Obligations.RepeatLengthFormsAgree := by
  intro m h
  have hb := repLength_bounds h
  have hm : repLength m = 129 - m.toNat := rfl
  rw [toNat_encodeByte_rep, toInt_encodeByte_rep]
  refine ⟨?_, ?_, hm, hb⟩ <;> omega

/-- Settles O1: eleven words, each decoded. -/
theorem spotCheckedControlBytes : Obligations.SpotCheckedControlBytes := by
  unfold Obligations.SpotCheckedControlBytes
  decide

/-- Settles O2: a byte below 0x80 is the control byte of a LIT of `c + 1` bytes, one above it that of a REP of
`257 - c` bytes. -/
theorem everyControlByteHasItsClassAndLength : Obligations.EveryControlByteHasItsClassAndLength := by
  intro c
  have hc : BitVec.ofNat 8 c.toNat = c := by simp
  refine ⟨fun h => ?_, fun h => ?_, fun h => ?_⟩
  · have hd := decodeByte_ofNat_lit (n := c.toNat) (by omega)
    have hl := litLength_ofNat (n := c.toNat + 1) (by omega) (by omega)
    rw [hc] at hd
    exact ⟨_, hd, hl⟩
  · rw [← hc, h]
    decide
  · have hd := decodeByte_ofNat_rep (n := 257 - c.toNat) (by omega) (by omega)
    have hl := repLength_ofNat (n := 257 - c.toNat) (by omega) (by omega)
    rw [Nat.sub_sub_self (by omega), hc] at hd
    exact ⟨_, hd, hl⟩

/-- The mask 0x80 of the LIT and REP rows picks the sign bit (R52). -/
theorem and_signMask : ∀ c : Byte, c &&& 0x80#8 = if signBit c then 0x80#8 else 0x00#8 := by decide

/-- Settles O4: one case per branch of the class decode; the NOP row's mask keeps the whole byte. -/
theorem opcodeTablePicksTheDecodedClass : Obligations.OpcodeTablePicksTheDecodedClass := by
  intro c
  have hall : c &&& 0xFF#8 = c := BitVec.and_allOnes
  cases hs : signBit c with
  | false =>
    have hn : c ≠ 0x80#8 := by rintro rfl; cases hs
    simp [rowOf, opcodeRows, decodeByte, Instr.mnemonic, and_signMask, hall, hs, hn]
  | true =>
    by_cases hn : c = 0x80#8
    · subst hn; decide
    · simp [rowOf, opcodeRows, decodeByte, Instr.mnemonic, and_signMask, hall, hs, hn]

end Sys2Proof

namespace Sys2Proof.Machine

/-- Settles O13: `execRep` tests the field before it looks at the state. -/
theorem repWithZeroFieldIsRefused : Obligations.RepWithZeroFieldIsRefused := by
  intro s
  simp [exec, execRep]

end Sys2Proof.Machine
end

section
/-! SUPPORT. The assembler and the disassembler undo each other (R58, R61). -/

namespace Sys2Proof

/-! ### One line -/

theorem Item.wellFormed_lit {data : List Byte} :
    (Item.lit data).wellFormed = true ↔ 1 ≤ data.length ∧ data.length ≤ 128 := by
  simp [Item.wellFormed]

theorem Item.wellFormed_rep {len : Nat} {v : Byte} : (Item.rep len v).wellFormed = true ↔ 2 ≤ len ∧ len ≤ 128 := by
  simp [Item.wellFormed]

theorem assembleItem_lit {data : List Byte} (h1 : 1 ≤ data.length) (h : data.length ≤ 128) :
    assembleItem (.lit data) = some (BitVec.ofNat 8 (data.length - 1) :: data) := by
  simp [assembleItem, Item.wellFormed, h1, h]

theorem assembleItem_rep {len : Nat} (h2 : 2 ≤ len) (h : len ≤ 128) (v : Byte) :
    assembleItem (.rep len v) = some [BitVec.ofNat 8 (257 - len), v] := by
  simp [assembleItem, Item.wellFormed, h2, h]

@[simp] theorem assembleItem_nop : assembleItem .nop = some [0x80#8] := rfl

@[simp] theorem assembleItem_raw (bytes : List Byte) : assembleItem (.raw bytes) = some bytes := rfl

/-- The assembler accepts the well-formed lines and refuses the others. -/
theorem isSome_assembleItem (it : Item) : (assembleItem it).isSome = it.wellFormed := by
  cases hw : it.wellFormed with
  | false => simp [assembleItem, hw]
  | true => cases it <;> simp [assembleItem, hw]

theorem assembleItem_eq_none {it : Item} (h : ¬ it.wellFormed = true) : assembleItem it = none := by
  simp [assembleItem, h]

/-- Settles O8: a line's operands are those of `Item.wellFormed`, or it is refused. -/
theorem assemblerLinesAndRefusals : Obligations.AssemblerLinesAndRefusals := by
  refine ⟨fun data => ⟨fun h => ?_, fun h => ?_⟩, fun len v => ⟨fun h => ?_, fun h => ?_⟩,
    assembleItem_nop, assembleItem_raw⟩
  · exact ⟨_, by rw [BitVec.toNat_ofNat]; omega, assembleItem_lit h.1 h.2⟩
  · exact assembleItem_eq_none (by rw [Item.wellFormed_lit]; omega)
  · exact ⟨_, by rw [BitVec.toNat_ofNat]; omega, assembleItem_rep h.1 h.2 v⟩
  · exact assembleItem_eq_none (by rw [Item.wellFormed_rep]; omega)

/-! ### The unit at the head of a byte sequence -/

/-- What `takeUnit` can answer, one case per class (R53 to R55). -/
theorem takeUnit_cons_eq_some {c : Byte} {rest more : List Byte} {it : Item} :
    takeUnit (c :: rest) = some (it, more) ↔
      (decodeByte c = .nop ∧ it = .nop ∧ rest = more) ∨
      (∃ m data, decodeByte c = .lit m ∧ data.length = litLength m ∧ it = .lit data ∧ rest = data ++ more) ∨
      (∃ m v, decodeByte c = .rep m ∧ it = .rep (repLength m) v ∧ rest = v :: more) := by
  cases hd : decodeByte c with
  | nop => simp [takeUnit, hd, eq_comm]
  | lit m =>
    simp only [takeUnit, hd]
    constructor
    · intro h
      split at h
      · rename_i hle
        cases h
        exact .inr (.inl ⟨m, _, rfl, by simpa using hle, rfl, (List.take_append_drop _ _).symm⟩)
      · cases h
    · rintro (⟨h, -⟩ | ⟨_, data, h, hlen, rfl, rfl⟩ | ⟨_, _, h, -⟩) <;> cases h
      simp [← hlen]
  | rep m =>
    cases rest with
    | nil => simp [takeUnit, hd]
    | cons v rest => simp [takeUnit, hd, eq_comm (a := v), eq_comm (a := it)]

/-- A unit taken is as long as its control byte declares (R58). -/
theorem length_of_takeUnit {c : Byte} {rest more : List Byte} {it : Item}
    (h : takeUnit (c :: rest) = some (it, more)) :
    (c :: rest).length = unitLength (decodeByte c) + more.length := by
  obtain ⟨hd, -, rfl⟩ | ⟨m, data, hd, hlen, -, rfl⟩ | ⟨m, v, hd, -, rfl⟩ := takeUnit_cons_eq_some.mp h <;>
    simp only [hd, unitLength, List.length_cons, List.length_append] <;> omega

/-- Settles O9: the length of the unit taken, with the declared length of each class. -/
theorem unitLengthFromControlByte : Obligations.UnitLengthFromControlByte := by
  intro c rest more it h
  refine ⟨length_of_takeUnit h, fun hd => ?_, fun m hd => ?_, fun m hd => ?_⟩ <;> rw [hd, unitLength]
  rw [litLength]; omega

/-- A unit taken leaves fewer bytes (R69). -/
theorem length_lt_of_takeUnit {bytes more : List Byte} {it : Item} (h : takeUnit bytes = some (it, more)) :
    more.length < bytes.length := by
  cases bytes with
  | nil => cases h
  | cons c rest =>
    have hlen := length_of_takeUnit h
    have hpos : 1 ≤ unitLength (decodeByte c) := by cases decodeByte c <;> simp [unitLength]
    omega

/-- What is taken assembles to the bytes it was taken from. -/
theorem assembleItem_of_takeUnit {bytes more : List Byte} {it : Item} (h : takeUnit bytes = some (it, more)) :
    ∃ b, assembleItem it = some b ∧ bytes = b ++ more := by
  cases bytes with
  | nil => cases h
  | cons c rest =>
    have hc := encodeByte_decodeByte c
    obtain ⟨hd, rfl, rfl⟩ | ⟨m, data, hd, hlen, rfl, rfl⟩ | ⟨m, v, hd, rfl, rfl⟩ := takeUnit_cons_eq_some.mp h
    · exact ⟨_, rfl, by rw [← hc, hd]; rfl⟩
    · have hb := litLength_bounds m
      rw [← hlen] at hb
      exact ⟨_, assembleItem_lit hb.1 hb.2, by rw [← hc, hd, encodeByte_lit, hlen]; rfl⟩
    · have hm := ne_zero_of_decodeByte hd
      have hb := repLength_bounds hm
      exact ⟨_, assembleItem_rep hb.1 hb.2 v, by rw [← hc, hd, encodeByte_rep hm]; rfl⟩

/-- A unit is taken back from the bytes it assembles to, whatever follows them. -/
theorem takeUnit_of_assembleItem {it : Item} {b : List Byte} (hu : it.isUnit = true) (h : assembleItem it = some b)
    (more : List Byte) : takeUnit (b ++ more) = some (it, more) := by
  have hw : it.wellFormed = true := by rw [← isSome_assembleItem, h, Option.isSome_some]
  cases it with
  | raw bytes => cases hu
  | nop => cases h; exact takeUnit_cons_eq_some.mpr (.inl ⟨by decide, rfl, rfl⟩)
  | lit data =>
    obtain ⟨h1, h128⟩ := Item.wellFormed_lit.mp hw
    obtain rfl := Option.some.inj ((assembleItem_lit h1 h128).symm.trans h)
    exact takeUnit_cons_eq_some.mpr (.inr (.inl ⟨_, data, decodeByte_ofNat_lit (by omega),
      (litLength_ofNat h1 h128).symm, rfl, rfl⟩))
  | rep len v =>
    obtain ⟨h2, h128⟩ := Item.wellFormed_rep.mp hw
    obtain rfl := Option.some.inj ((assembleItem_rep h2 h128 v).symm.trans h)
    exact takeUnit_cons_eq_some.mpr (.inr (.inr ⟨_, v, decodeByte_ofNat_rep h2 h128,
      by rw [repLength_ofNat h2 h128], rfl⟩))

/-! ### All the lines -/

/-- Fuel beyond the number of bytes changes nothing. -/
theorem disassembleFuel_eq {f g : Nat} {bytes : List Byte} (hf : bytes.length ≤ f) (hg : bytes.length ≤ g) :
    disassembleFuel f bytes = disassembleFuel g bytes := by
  induction f generalizing g bytes with
  | zero =>
    obtain rfl := List.length_eq_zero_iff.mp (Nat.le_zero.mp hf)
    cases g <;> rfl
  | succ f ih =>
    cases bytes with
    | nil => cases g <;> rfl
    | cons c rest =>
      obtain ⟨g, rfl⟩ := Nat.exists_eq_add_of_le' (Nat.le_trans (Nat.succ_pos _) hg)
      simp only [disassembleFuel]
      cases ht : takeUnit (c :: rest) with
      | none => rfl
      | some unit =>
        have hlt := length_lt_of_takeUnit ht
        exact congrArg _ (ih (by omega) (by omega))

theorem disassemble_of_takeUnit {bytes more : List Byte} {it : Item} (h : takeUnit bytes = some (it, more)) :
    disassemble bytes = it :: disassemble more := by
  cases bytes with
  | nil => cases h
  | cons c rest =>
    simp only [disassemble, List.length_cons, disassembleFuel, h]
    rw [disassembleFuel_eq (Nat.le_of_lt_succ (length_lt_of_takeUnit h)) (Nat.le_refl _)]

/-- A last unit that runs past the end is printed as it is (R61). -/
theorem disassemble_of_takeUnit_none {c : Byte} {rest : List Byte} (h : takeUnit (c :: rest) = none) :
    disassemble (c :: rest) = [.raw (c :: rest)] := by
  simp [disassemble, disassembleFuel, h]

/-- Settles O6: induction on the units; each is taken back from the head of the bytes. -/
theorem disassembleInvertsAssemble : Obligations.DisassembleInvertsAssemble := by
  intro items h
  induction items with
  | nil => exact ⟨[], rfl, rfl⟩
  | cons it rest ih =>
    obtain ⟨⟨hu, hw⟩, hrest⟩ := List.forall_mem_cons.mp h
    obtain ⟨more, hmore, hdis⟩ := ih hrest
    obtain ⟨b, hb⟩ := Option.isSome_iff_exists.mp ((isSome_assembleItem it).trans hw)
    refine ⟨b ++ more, (assemble_cons ..).mpr ⟨b, more, hb, hmore, rfl⟩, ?_⟩
    rw [disassemble_of_takeUnit (takeUnit_of_assembleItem hu hb more), hdis]

/-- Settles O7: strong induction on the bytes; the head is a unit that assembles to them, or they are raw. -/
theorem assembleInvertsDisassemble : Obligations.AssembleInvertsDisassemble := by
  intro bytes
  induction hn : bytes.length using Nat.strong_induction_on generalizing bytes with
  | _ n ih =>
    cases bytes with
    | nil => rfl
    | cons c rest =>
      cases ht : takeUnit (c :: rest) with
      | none =>
        rw [disassemble_of_takeUnit_none ht]
        exact (assemble_cons ..).mpr ⟨_, [], rfl, rfl, (List.append_nil _).symm⟩
      | some unit =>
        obtain ⟨it, more⟩ := unit
        obtain ⟨b, hb, hsplit⟩ := assembleItem_of_takeUnit ht
        rw [disassemble_of_takeUnit ht]
        exact (assemble_cons ..).mpr ⟨b, more, hb, ih _ (hn ▸ length_lt_of_takeUnit ht) more rfl, hsplit⟩

end Sys2Proof
end

section
/-! SUPPORT. A job on the bytes of an encoder's units ends with their output and no flag (95_test_vectors.md W7). -/

namespace Sys2Proof.Machine

/-- With room for it, the call does the unit at the head in full, and then the rest. -/
theorem callRest_of_takeUnit {bytes more : List Byte} {it : Item} {cap : Nat} (ht : takeUnit bytes = some (it, more))
    (hcap : cap ≠ 0) (hroom : it.expand.length ≤ cap) :
    ∃ n, callRest bytes cap =
      CallResult.andThen ⟨it.expand, n, false, false⟩ (callRest more (cap - it.expand.length)) := by
  cases bytes with
  | nil => cases ht
  | cons c rest =>
    obtain ⟨hd, rfl, rfl⟩ | ⟨m, data, hd, hlen, rfl, rfl⟩ | ⟨m, v, hd, rfl, rfl⟩ := takeUnit_cons_eq_some.mp ht
    · exact ⟨1, callRest_nop hcap hd⟩
    · have hfit : data.length ≤ cap := hroom
      have hn : min data.length (min (data ++ more).length cap) = data.length := by
        rw [List.length_append]; omega
      refine ⟨1 + data.length, ?_⟩
      rw [callRest_lit hcap hd, ← hlen, hn, callCopy, ← CallResult.andThen_assoc]
      simp [CallResult.andThen, Item.expand, hfit]
    · have hfit : repLength m ≤ cap := by simpa [Item.expand] using hroom
      refine ⟨2, ?_⟩
      rw [callRest_rep hcap hd, callValue, callFill, ← CallResult.andThen_assoc, ← CallResult.andThen_assoc]
      simp [CallResult.andThen, Item.expand, hfit]

/-- The call on assembled units, with room for exactly their expansion, gives the expansion and meets no flag. -/
theorem callRest_of_assemble {units : List Item} {bytes : List Byte} (hu : ∀ it ∈ units, it.isUnit = true)
    (h : assemble units = some bytes) :
    ∃ n, callRest bytes (units.flatMap Item.expand).length = ⟨units.flatMap Item.expand, n, false, false⟩ := by
  induction units generalizing bytes with
  | nil => cases h; exact ⟨0, rfl⟩
  | cons it units ih =>
    obtain ⟨b, more, hb, hmore, rfl⟩ := (assemble_cons ..).mp h
    obtain ⟨hit, hu⟩ := List.forall_mem_cons.mp hu
    by_cases hnil : (it :: units).flatMap Item.expand = []
    · exact ⟨0, by rw [hnil]; exact callRest_full _⟩
    · have hcap : ((it :: units).flatMap Item.expand).length ≠ 0 := mt List.length_eq_zero_iff.mp hnil
      obtain ⟨n, hn⟩ := callRest_of_takeUnit (takeUnit_of_assembleItem hit hb more) hcap (by simp)
      obtain ⟨k, hk⟩ := ih hu hmore
      refine ⟨n + k, ?_⟩
      rw [hn, List.flatMap_cons, List.length_append, Nat.add_sub_cancel_left, hk]
      rfl

/-- Settles O54: the job computes the decode call (O52), which on the encoder's bytes is its output. -/
theorem roundTripOfAnyEncoder : Obligations.RoundTripOfAnyEncoder := by
  intro s units bytes hs hsch hu hasm hin hout hread
  obtain ⟨n, hcall⟩ := callRest_of_assemble (fun it hit => (hu it hit).1) hasm
  rw [← hout, ← decodeCall_eq_callRest hin.symm] at hcall
  obtain ⟨t, hrun, hdone, hwr, -, htrunc, hclamp, hbytes, -, -, -, hcap⟩ :=
    jobComputesTheDecodeCall s bytes hs hsch hread
  rw [hcall] at hwr htrunc hclamp hbytes
  refine ⟨t, hrun, hdone, hbytes, htrunc, hclamp, ?_⟩
  simp [State.short, hwr, hcap, hout]

end Sys2Proof.Machine
end

section
/-! SUPPORT. The control units and the decoder's turn, as R63 to R68 and R72 state them. -/

namespace Sys2Proof.Machine

/-! ### The bodies (R65 to R67) -/

/-- Settles O10: NOP's arm answers its own state. -/
theorem nopHasNoFurtherEffect : Obligations.NopHasNoFurtherEffect := exec_nop

/-- Settles O11: the copy loop finds its bytes in buffers that hold the job, and `execLit_next` says what it leaves. -/
theorem litCopiesTheClampedRun : Obligations.LitCopiesTheClampedRun := by
  intro m s h
  obtain ⟨t, ht⟩ := execLit_completes h m
  obtain ⟨u, hw, rfl⟩ := execLit_next ht
  exact ⟨_, ht, by rw [hw.frame]; rfl, hw.base, hw.wrote, hw.kept⟩

/-- Settles O12: the value byte is missing exactly at the end of the input; where it is there, the fill loop finds its
bytes, and `execRep_next` says what it leaves. -/
theorem repReplicatesTheValueByte : Obligations.RepReplicatesTheValueByte := by
  intro m s hm h
  constructor
  · intro hv
    rw [exec_rep_missing hm hv, State.noteTrunc, Bool.or_true]
  · intro hlt
    obtain ⟨t, ht⟩ := execRep_completes h (Nat.le_of_lt hlt) hm
    obtain ⟨-, ⟨hv, -⟩ | ⟨-, v, u, hr, hw, rfl⟩⟩ := execRep_next ht
    · exact absurd hv (Nat.ne_of_lt hlt)
    · exact ⟨v, _, hr, ht, by rw [hw.frame]; rfl, hw.base, hw.wrote, hw.kept⟩

/-- A run cut below its declared length is cut by a bound, and a LIT then stands at it (R72). -/
theorem execLit_cut_short {m : RunField} {s t : State} (hrd : s.rd ≤ s.inLen) (hwr : s.wr ≤ s.outCap)
    (h : exec (.lit m) s = .next t) (hcut : t.wr - s.wr < litLength m) : t.wr = t.outCap ∨ t.rd = t.inLen := by
  obtain ⟨u, hw, rfl⟩ := execLit_next h
  simp [hw.rd_eq, hw.wr_eq, hw.inLen_eq, hw.outCap_eq, litCount, State.inRem, State.outRem] at *
  omega

/-- A REP that stores fewer bytes than it declares has found the input at its end or fills the output (R72). -/
theorem execRep_cut_short {m : RunField} {s t : State} (hwr : s.wr ≤ s.outCap)
    (h : exec (.rep m) s = .next t) (hcut : t.wr - s.wr < repLength m) : t.wr = t.outCap ∨ t.rd = t.inLen := by
  obtain ⟨-, ⟨hv, rfl⟩ | ⟨-, v, u, -, hw, rfl⟩⟩ := execRep_next h
  · exact .inr hv
  · left
    simp [hw.wr_eq, hw.outCap_eq, repCount, State.outRem] at *
    omega

/-- A unit's body changes neither `st` nor the implementation (R65 to R67). -/
theorem exec_keeps_running {i : Instr} {s t : State} (h : exec i s = .next t) : t.st = s.st ∧ t.impl = s.impl := by
  cases i with
  | nop => cases h; exact ⟨rfl, rfl⟩
  | lit m =>
    obtain ⟨u, hw, rfl⟩ := execLit_next h
    exact ⟨hw.st_eq, hw.impl_eq⟩
  | rep m =>
    obtain ⟨-, ⟨-, rfl⟩ | ⟨-, v, u, -, hw, rfl⟩⟩ := execRep_next h
    · exact ⟨rfl, rfl⟩
    · exact ⟨hw.st_eq, hw.impl_eq⟩

/-- Settles O18: the cut run leaves a cursor at its bound, where the decoder's step is END. -/
theorem cutShortUnitIsTheLast : Obligations.CutShortUnitIsTheLast := by
  intro i s t hs hi hrd hwr h hcut
  have hbound : t.wr = t.outCap ∨ t.rd = t.inLen := by
    obtain ⟨m, rfl, hcut⟩ | ⟨m, rfl, hcut⟩ := hcut
    · exact execLit_cut_short hrd hwr h hcut
    · exact execRep_cut_short hwr h hcut
  obtain ⟨hst, himpl⟩ := exec_keeps_running h
  exact ⟨hbound.symm, decoderTurn_end (hst.trans hs) (.inl (himpl.trans hi)) hbound⟩

/-! ### The decoder's turn in a step (R63, R64, R68) -/

theorem step_of_decoder {s u : State} (h : s.nextTurn = (.decoder, u)) : step s = decoderTurn u := by
  simp [step, h]

/-- Settles O14: away from the bounds the decoder's turn is the body of the unit at `rd`. -/
theorem stepRunsTheDecodedUnit : Obligations.StepRunsTheDecodedUnit := by
  intro s u c hturn hs hi hwr hrd hc
  exact (step_of_decoder hturn).trans (decoderTurn_unit hs hi ⟨hwr, hrd⟩ hc)

/-- Settles O15: at a bound the decoder's turn is END on both implementations. -/
theorem endStepOnlyMovesToDone : Obligations.EndStepOnlyMovesToDone := by
  intro s u hturn hs hb he
  exact (step_of_decoder hturn).trans (decoderTurn_end hs hb he)

/-- Settles O16: outside SCAN the decoder's turn answers its own state. -/
theorem decoderIsQuietOutsideScan : Obligations.DecoderIsQuietOutsideScan := by
  intro s u hturn hs
  exact (step_of_decoder hturn).trans (decoderTurn_quiet hs)

end Sys2Proof.Machine
end

section
/-! SUPPORT. A unit-level job takes at most one step per input byte, and END (R69, R117). -/

namespace Sys2Proof.Machine

/-- A unit-level step is END, or it reads at least its unit's control byte (R69). -/
theorem unitLevel_ends_or_reads {s t : State} (h : Inv s) (hs : s.st = .scan) (hi : s.impl = .unitLevel)
    (ht : decoderTurn s = .next t) : t.st = .done ∨ (t.st = .scan ∧ s.rd < t.rd) := by
  by_cases he : s.wr = s.outCap ∨ s.rd = s.inLen
  · rw [decoderTurn_end hs (.inl hi) he] at ht
    cases ht
    exact .inl rfl
  · obtain ⟨hwr, hrd⟩ := not_or.mp he
    obtain ⟨c, hc⟩ := Option.isSome_iff_exists.mp ((h.covers hs).input s.rd (h.room ⟨hwr, hrd⟩).1)
    obtain ⟨hscan, hlt, -⟩ := cursorsAdvanceByTheBytesMoved s t c hs hi hwr hrd hc ht
    exact .inr ⟨hscan, hlt⟩

/-- A unit-level job that is over already, or has fewer than `k` input bytes left, is over after `k` steps. -/
theorem runSteps_to_done_unitLevel {s : State} {k : Nat} (h : Inv s) (hsch : s.schedule = []) (hi : s.impl = .unitLevel)
    (hs : s.st = .done ∨ (s.st = .scan ∧ s.inRem < k)) : ∃ t, runSteps k s = .next t ∧ t.st = .done := by
  induction k generalizing s with
  | zero => exact ⟨s, rfl, hs.resolve_right (by simp)⟩
  | succ k ih =>
    obtain ⟨u, hu⟩ := decoderTurn_completes h
    have hm := decoderTurn_next hu
    have hleft : u.st = .done ∨ (u.st = .scan ∧ u.inRem < k) := by
      obtain hdone | ⟨hscan, hk⟩ := hs
      · rw [decoderTurn_quiet (by simp [hdone])] at hu
        cases hu
        exact .inl hdone
      · refine (unitLevel_ends_or_reads h hscan hi hu).imp_right fun ⟨ht, hlt⟩ => ⟨ht, ?_⟩
        have hbound := (decoderMove_bounds h hm).1
        simp only [State.inRem, hm.inLen_eq] at *
        omega
    rw [runSteps_succ_of_next k ((step_of_nil hsch).trans hu)]
    exact ih (decoderMove_inv h hm) (hm.schedule_eq.trans hsch) (hm.impl_eq.trans hi) hleft

/-- Settles O49: with `in_len - rd` input bytes left, one step more is enough. -/
theorem unitLevelJobEnds : Obligations.UnitLevelJobEnds := fun _ h hs hi hsch =>
  runSteps_to_done_unitLevel h hsch hi (.inr ⟨hs, Nat.lt_succ_self _⟩)

end Sys2Proof.Machine
end

section
/-! SUPPORT. What decides which host actions complete while a job runs: the lengths, and where the buffers are (R75,
R80, R82, R84). No step of a running job changes it. -/

namespace Sys2Proof.Machine

/-- The lengths of the job, and the places and offsets of the buffers, are the same. -/
structure SameExtent (s t : State) : Prop where
  inLen   : t.inLen = s.inLen
  outCap  : t.outCap = s.outCap
  inBase  : t.input.base = s.input.base
  outBase : t.output.base = s.output.base
  inKeys  : t.input.cells.map Prod.fst = s.input.cells.map Prod.fst
  outKeys : t.output.cells.map Prod.fst = s.output.cells.map Prod.fst

theorem SameExtent.refl (s : State) : SameExtent s s := ⟨rfl, rfl, rfl, rfl, rfl, rfl⟩

theorem SameExtent.symm {s t : State} (h : SameExtent s t) : SameExtent t s :=
  ⟨h.inLen.symm, h.outCap.symm, h.inBase.symm, h.outBase.symm, h.inKeys.symm, h.outKeys.symm⟩

theorem SameExtent.trans {s t u : State} (h : SameExtent s t) (h' : SameExtent t u) : SameExtent s u :=
  ⟨h'.inLen.trans h.inLen, h'.outCap.trans h.outCap, h'.inBase.trans h.inBase, h'.outBase.trans h.outBase,
    h'.inKeys.trans h.inKeys, h'.outKeys.trans h.outKeys⟩

theorem SameExtent.isSome_input {s t : State} (h : SameExtent s t) (a : Nat) :
    (Mem.read t.input.cells a).isSome = (Mem.read s.input.cells a).isSome := by
  rw [Bool.eq_iff_iff, Mem.isSome_read_iff, Mem.isSome_read_iff, h.inKeys]

theorem SameExtent.isSome_output {s t : State} (h : SameExtent s t) (a : Nat) :
    (Mem.read t.output.cells a).isSome = (Mem.read s.output.cells a).isSome := by
  rw [Bool.eq_iff_iff, Mem.isSome_read_iff, Mem.isSome_read_iff, h.outKeys]

theorem SameExtent.covers {s t : State} (h : SameExtent s t) (hc : Covers s) : Covers t :=
  ⟨fun i hi => by rw [h.isSome_input]; exact hc.input i (h.inLen ▸ hi),
    fun j hj => by rw [h.isSome_output]; exact hc.output j (h.outCap ▸ hj)⟩

/-- The decoder's turn changes no length and moves no buffer (R34, R37). -/
theorem DecoderMove.sameExtent {s t : State} (hm : DecoderMove s t) : SameExtent s t :=
  ⟨hm.inLen_eq, hm.outCap_eq, by rw [hm.input_eq], hm.output_shape.1, by rw [hm.input_eq], hm.output_shape.2⟩

/-- Nor does a host action but RESET while BUSY (R74, R112). -/
theorem hostTurn_busy_sameExtent {a : HostAction} {s t : State} (hs : s.st = .scan) (ha : a ≠ .reset)
    (h : hostTurn a s = .next t) : SameExtent s t := by
  obtain ⟨hj, -, -, hib, hob, hik, hok⟩ := hostTurn_busy hs ha h
  exact ⟨hj.inLen.symm, hj.outCap.symm, hib, hob, hik, hok⟩

/-- A host action that completes in BUSY completes at every point of a job of the same extent. -/
theorem hostTurn_completes_of_sameExtent {a : HostAction} {s s' t : State} (h : SameExtent s s') (hs : s.st = .scan)
    (hs' : s'.st = .scan) (ha : hostTurn a s = .next t) : ∃ t', hostTurn a s' = .next t' := by
  have hin (x : Nat) : s'.ownsInputAt x 1 = s.ownsInputAt x 1 := by
    simp only [State.ownsInputAt, hs, hs', h.inBase, h.inLen]
  have hout (x : Nat) : s'.ownsOutputAt x 1 = s.ownsOutputAt x 1 := by
    simp only [State.ownsOutputAt, resultPending_of_scan hs, resultPending_of_scan hs', h.outBase, h.outCap]
  simp only [hostTurn_eq_next] at ha ⊢
  cases ha with
  | reset => exact ⟨_, .reset⟩
  | startIgnored l c => exact ⟨_, .startIgnored l c hs'⟩
  | startTaken l c hn => exact absurd hs hn
  | read r => exact ⟨_, .read r⟩
  | place _ _ _ _ hp | readOut _ _ hp => simp [resultPending_of_scan hs] at hp
  | writeIn i b hi ho hr =>
    exact ⟨_, .writeIn i b (by rwa [h.inBase, hin]) (by rwa [h.inBase, hout]) (by rwa [h.isSome_input])⟩
  | readIn i b hi ho hr =>
    obtain ⟨b', hr'⟩ := Option.isSome_iff_exists.mp ((h.isSome_input i).trans (by simp [hr]))
    exact ⟨_, .readIn i b' (by rwa [h.inBase, hin]) (by rwa [h.inBase, hout]) hr'⟩
  | readInFree i hi ho hr =>
    exact ⟨_, .readInFree i (by rwa [h.inBase, hin]) (by rwa [h.inBase, hout]) (by rwa [h.isSome_input])⟩
  | writeOut j b ho hi hr =>
    exact ⟨_, .writeOut j b (by rwa [h.outBase, hout]) (by rwa [h.outBase, hin]) (by rwa [h.isSome_output])⟩
  | readOutFree j hp hr => exact ⟨_, .readOutFree j (resultPending_of_scan hs') (by rwa [h.isSome_output])⟩
  | collect _ hd => cases hs.symm.trans hd

end Sys2Proof.Machine
end

section
/-! SUPPORT. What a job leaves is fixed at its start: no step of either agent but RESET changes its outcome (R73,
R92). -/

namespace Sys2Proof.Machine

theorem Mem.bytesAt_congr {m m' : List Host.Cell} {a n : Nat}
    (h : ∀ k, k < n → Mem.read m (a + k) = Mem.read m' (a + k)) : Mem.bytesAt m a n = Mem.bytesAt m' a n :=
  List.map_congr_left fun k hk => by rw [h k (List.mem_range.mp hk)]

/-- At one point of one job, the outcome is one. -/
theorem SameJob.outcome_eq {s t : State} (hj : SameJob s t) (h : Inv s) : t.outcome = s.outcome := by
  have hwr := h.wrBound
  have hso : t.soFar = s.soFar := by
    simp only [State.soFar, ← hj.rd, ← hj.wr, ← hj.trunc, ← hj.clamp]
    rw [Mem.bytesAt_congr fun k hk => hj.output (0 + k) (by omega)]
  have hun : t.unread = s.unread := by
    simp only [State.unread, State.inRem, ← hj.rd, ← hj.inLen]
    exact (Mem.bytesAt_congr fun k hk => hj.input (s.rd + k) (by omega)).symm
  simp only [State.outcome, State.remaining, State.outRem, hso, hun, ← hj.st, ← hj.ph, ← hj.cnt, ← hj.val, ← hj.outCap,
    ← hj.wr]

/-- A step of a running job, by either agent, leaves its extent and its outcome as they are, unless it is a RESET,
which leads to IDLE. -/
theorem step_keeps_outcome {s t : State} (h : Inv s) (hs : s.st = .scan) (hst : step s = .next t) (ht : t.st ≠ .idle) :
    SameExtent s t ∧ t.outcome = s.outcome := by
  obtain ⟨turns, ⟨-, hm⟩ | ⟨a, -, hm⟩⟩ := step_moves hst
  · exact ⟨{ hm.sameExtent with }, (decoderMove_outcome (h.of_lists turns _ _) hm :)⟩
  · have hreset : a ≠ .reset := by
      rintro rfl
      cases hm
      exact ht (State.resetBlock_st _)
    have ha := hostTurn_eq_next.mpr hm
    obtain ⟨hj, -⟩ := hostTurn_busy (s := { s with schedule := turns }) hs hreset ha
    exact ⟨{ hostTurn_busy_sameExtent (s := { s with schedule := turns }) hs hreset ha with },
      hj.outcome_eq (h.of_lists turns _ _)⟩

/-- The first step of a job that reaches DONE starts from SCAN, does not RESET the block, and the rest reaches DONE. -/
theorem JobDoneAt.succ {k : Nat} {s t : State} (h : JobDoneAt (k + 1) s t) :
    s.st = .scan ∧ ∃ u, step s = .next u ∧ u.st ≠ .idle ∧ JobDoneAt k u t := by
  refine ⟨h.before 0 s (Nat.succ_pos k) rfl, ?_⟩
  have hrun := h.run
  cases hst : step s with
  | fault f => simp [runSteps, hst] at hrun
  | refused r => simp [runSteps, hst] at hrun
  | next u =>
    rw [runSteps_succ_of_next k hst] at hrun
    have hj : JobDoneAt k u t := ⟨hrun, h.done, fun j v hjk hv =>
      h.before (j + 1) v (Nat.succ_lt_succ hjk) ((runSteps_succ_of_next j hst).trans hv)⟩
    refine ⟨u, rfl, ?_, hj⟩
    cases k with
    | zero => cases hrun; simp [h.done]
    | succ k => simp [hj.before 0 u (Nat.succ_pos k) rfl]

/-- A job that reaches DONE has its extent and its outcome from the start. -/
theorem JobDoneAt.keeps_outcome {k : Nat} {s t : State} (hd : JobDoneAt k s t) (h : Inv s) :
    Inv t ∧ SameExtent s t ∧ t.outcome = s.outcome := by
  induction k generalizing s with
  | zero => cases hd.run; exact ⟨h, .refl _, rfl⟩
  | succ k ih =>
    obtain ⟨hs, u, hst, hu, hd⟩ := hd.succ
    obtain ⟨hext, hout⟩ := step_keeps_outcome h hs hst hu
    obtain ⟨ht, hext', hout'⟩ := ih hd (stepKeepsTheInvariant s u h hst)
    exact ⟨ht, hext.trans hext', hout'.trans hout⟩

/-- In DONE a started job has produced its outcome, and every byte of it stands in OUT. -/
theorem JobStarted.done {k : Nat} {s t : State} (h : JobStarted s) (hd : JobDoneAt k s t) :
    t.soFar = s.outcome ∧ ∀ a, a < t.wr → (Mem.read t.output.cells (0 + a)).isSome := by
  obtain ⟨ht, hext, hout⟩ := hd.keeps_outcome h.inv
  constructor
  · rw [← hout, State.outcome, remaining_of_not_scan (by simp [hd.done]), CallResult.andThen_nothing]
  · intro a ha
    have := ht.wrBound
    exact (hext.covers (h.inv.covers h.st)).output _ (by omega)

/-- The outcome of a job at its start is a function of its lengths and its input bytes (R73). -/
theorem JobStarted.outcome_congr {s s' : State} (h : JobStarted s) (h' : JobStarted s') (hl : s.inLen = s'.inLen)
    (hc : s.outCap = s'.outCap) (hin : ∀ a, a < s.inLen → Mem.read s.input.cells a = Mem.read s'.input.cells a) :
    s.outcome = s'.outcome := by
  have hb {u : State} (hu : JobStarted u) :
      Mem.readRun u.input.cells u.inLen 0 = some (Mem.bytesAt u.input.cells 0 u.inLen) :=
    Mem.readRun_eq_bytesAt fun k hk => (hu.inv.covers hu.st).input (0 + k) (by omega)
  rw [h.outcome_eq (hb h), h'.outcome_eq (hb h'), ← hl, ← hc, Mem.bytesAt_congr fun k hk => hin (0 + k) (by omega)]

/-- Settles O53: the two jobs start with one outcome (`JobStarted.outcome_congr`), each keeps it to its end, and in DONE
it is what the job has produced. -/
theorem resultIsAFunctionOfTheJob : Obligations.ResultIsAFunctionOfTheJob := by
  intro s s' t t' k k' h h' hl hc hin hd hd'
  obtain ⟨hso, hsome⟩ := h.done hd
  obtain ⟨hso', hsome'⟩ := h'.done hd'
  have heq : t.soFar = t'.soFar := by rw [hso, hso', h.outcome_congr h' hl hc hin]
  obtain ⟨hbytes, hrd, htr, hcl⟩ := CallResult.mk.inj heq
  have hwr : t.wr = t'.wr := by simpa using congrArg List.length hbytes
  refine ⟨hrd, hwr, htr, hcl, fun a ha => ?_⟩
  have ha' : a < t'.wr := hwr ▸ ha
  have := congrArg (·[a]?) hbytes
  simpa only [Mem.getElem?_bytesAt ha (hsome a ha), Mem.getElem?_bytesAt ha' (hsome' a ha'), Nat.zero_add] using this

end Sys2Proof.Machine
end

section
/-! SUPPORT. Host actions interleaved with a running job: the decoder reads nothing of the host's own fields, and the
job goes on as it does alone (R73, R75, R80, R82, R99). -/

namespace Sys2Proof.Machine

/-! ### The decoder over other host fields -/

section
variable {s t : State} (sch : List Turn) (r : List Reply) (n : Nat) (d : Bool)

/-- `s` with other turns to come, other answers, another count of draws and another mark of what the host has read. -/
def State.withHost (s : State) (sch : List Turn) (r : List Reply) (n : Nat) (d : Bool) : State :=
  { s with schedule := sch, replies := r, fresh := n, doneRead := d }

theorem memWrite_withHost {j : Nat} {v : Byte} (h : memWrite s j v = .ok t) :
    memWrite (s.withHost sch r n d) j v = .ok (t.withHost sch r n d) := by
  obtain ⟨hs, rfl⟩ := memWrite_eq_ok.mp h
  exact memWrite_eq_ok.mpr ⟨hs, rfl⟩

theorem copyRun_withHost {k src dst : Nat} (h : copyRun k src dst s = .ok t) :
    copyRun k src dst (s.withHost sch r n d) = .ok (t.withHost sch r n d) := by
  have := copyRun_frame (·.withHost sch r n d) (fun _ => rfl) (fun _ _ => rfl) k src dst s fun _ _ _ _ _ => rfl
  rwa [h] at this

theorem fillRun_withHost {k dst : Nat} {v : Byte} (h : fillRun k dst v s = .ok t) :
    fillRun k dst v (s.withHost sch r n d) = .ok (t.withHost sch r n d) := by
  have := fillRun_frame (·.withHost sch r n d) (fun _ => rfl) (fun _ _ => rfl) k dst v s
  rwa [h] at this

/-- A unit's body carries the host's fields along (R65 to R67). -/
theorem exec_withHost {i : Instr} (h : exec i s = .next t) :
    exec i (s.withHost sch r n d) = .next (t.withHost sch r n d) := by
  cases i with
  | nop => cases h; rfl
  | lit m =>
    obtain ⟨u, hu, rfl⟩ := exec_lit_eq_next.mp h
    exact exec_lit_eq_next.mpr ⟨_, copyRun_withHost sch r n d hu, rfl⟩
  | rep m =>
    obtain ⟨hm, ⟨hv, rfl⟩ | ⟨hv, v, -, hr, -⟩⟩ := execRep_next h
    · exact exec_rep_missing hm hv
    · rw [exec_rep_value hm hv hr] at h
      obtain ⟨u, hu, rfl⟩ := repEmit_eq_next.mp h
      rw [exec_rep_value (s := s.withHost sch r n d) hm hv hr]
      exact repEmit_eq_next.mpr ⟨_, fillRun_withHost sch r n d hu, rfl⟩

/-- The decoder's turn carries the host's fields along (R76, R99). -/
theorem decoderTurn_withHost (h : decoderTurn s = .next t) :
    decoderTurn (s.withHost sch r n d) = .next (t.withHost sch r n d) := by
  cases decoderTurn_next h with
  | quiet hs => exact decoderTurn_quiet hs
  | finish hs hb he => exact decoderTurn_end hs hb he
  | nop hs hi he c hc | lit hs hi he c hc | repMissing hs hi he c hc | rep hs hi he c hc =>
    rw [decoderTurn_unit hs hi he hc] at h
    exact (decoderTurn_unit (s := s.withHost sch r n d) hs hi he hc).trans (exec_withHost sch r n d h)
  | engineFetch hs hi hp he c hc =>
    rw [decoderTurn_ctrl (s := s.withHost sch r n d) hs hi hp he hc]
    cases decodeByte c <;> rfl
  | engineCopy hs hi hp =>
    rw [decoderTurn_litc hs hi hp] at h
    obtain ⟨hn, b, u, hb, hu, ht⟩ := engineLitc_eq_next.mp h
    rw [decoderTurn_litc (s := s.withHost sch r n d) hs hi hp, ht]
    exact engineLitc_eq_next.mpr ⟨hn, b, _, hb, memWrite_withHost sch r n d hu, rfl⟩
  | engineMissing hs hi hp hv => exact decoderTurn_rfetch_missing hs hi hp hv
  | engineValue hs hi hp hv v hr => exact decoderTurn_rfetch_value (s := s.withHost sch r n d) hs hi hp hv hr
  | engineEmit hs hi hp =>
    rw [decoderTurn_remit hs hi hp] at h
    obtain ⟨hn, u, hu, ht⟩ := engineRemit_eq_next.mp h
    rw [decoderTurn_remit (s := s.withHost sch r n d) hs hi hp, ht]
    exact engineRemit_eq_next.mpr ⟨hn, _, memWrite_withHost sch r n d hu, rfl⟩

end

/-! ### One job, alone and among host actions -/

theorem SameJob.refl (s : State) : SameJob s s :=
  ⟨rfl, rfl, rfl, rfl, rfl, rfl, rfl, rfl, rfl, rfl, rfl, fun _ _ => rfl, fun _ _ => rfl⟩

theorem SameJob.trans {s t u : State} (h : SameJob s t) (h' : SameJob t u) : SameJob s u :=
  { st := h.st.trans h'.st, inLen := h.inLen.trans h'.inLen, outCap := h.outCap.trans h'.outCap
    rd := h.rd.trans h'.rd, wr := h.wr.trans h'.wr, trunc := h.trunc.trans h'.trunc, clamp := h.clamp.trans h'.clamp
    ph := h.ph.trans h'.ph, cnt := h.cnt.trans h'.cnt, val := h.val.trans h'.val, impl := h.impl.trans h'.impl
    input := fun a ha => (h.input a ha).trans (h'.input a (h.inLen ▸ ha))
    output := fun a ha => (h.output a ha).trans (h'.output a (h.outCap ▸ ha)) }

/-- At one point of one job, two states differ in their buffers and in the host's fields only. -/
theorem SameJob.eq_withHost {s s' : State} (h : SameJob s s') :
    s' = (s.withBuffers s'.input s'.output).withHost s'.schedule s'.replies s'.fresh s'.doneRead := by
  cases s; cases s'; cases h; simp_all [State.withBuffers, State.withHost]

/-- At one point of one job the decoder's turn does the same to the job, whatever else the states hold. -/
theorem SameJob.after_decoderTurn {s s' t : State} (hj : SameJob s s')
    (hk : s'.output.cells.map Prod.fst = s.output.cells.map Prod.fst) (h : Inv s) (ht : decoderTurn s = .next t) :
    ∃ t', decoderTurn s' = .next t' ∧ SameJob t t' := by
  have hm := decoderTurn_next ht
  have hrd := (decoderMove_bounds h hm).1
  obtain ⟨o', ho', hstored⟩ := decoderTurn_other_buffers hk (fun a _ ha => (hj.input a (by omega)).symm) ht
  have hm' := decoderTurn_next ho'
  have ht' := decoderTurn_withHost s'.schedule s'.replies s'.fresh s'.doneRead ho'
  rw [← hj.eq_withHost] at ht'
  refine ⟨_, ht', rfl, rfl, rfl, rfl, rfl, rfl, rfl, rfl, rfl, rfl, rfl, fun a ha => ?_, fun a ha => ?_⟩
  · rw [hm.input_eq]
    exact hj.input a (hm.inLen_eq ▸ ha)
  · by_cases hin : s.wr ≤ a ∧ a < t.wr
    · exact (hstored a hin.1 hin.2).symm
    · have hout : a < s.wr ∨ t.wr ≤ a := by omega
      exact (hm.kept hout).trans ((hj.output a (hm.outCap_eq ▸ ha)).trans (hm'.kept hout).symm)

/-- `s` has the decoder alone to move, and `t` is at the same point of the same job, with any turns to come. -/
structure Tracks (s t : State) : Prop where
  inv    : Inv s
  alone  : s.schedule = []
  job    : SameJob s t
  extent : SameExtent s t

theorem Tracks.refl {s : State} (h : Inv s) (hsch : s.schedule = []) : Tracks s s := ⟨h, hsch, .refl s, .refl s⟩

/-- What the host has still to do does not matter. -/
theorem Tracks.of_schedule {s t : State} (h : Tracks s t) (turns : List Turn) :
    Tracks s { t with schedule := turns } :=
  ⟨h.inv, h.alone, { h.job with }, { h.extent with }⟩

/-- A decoder's turn of both keeps the two together. -/
theorem Tracks.after_decoderTurn {s t u : State} (h : Tracks s t) (hu : decoderTurn s = .next u) :
    ∃ v, decoderTurn t = .next v ∧ v.schedule = t.schedule ∧ Tracks u v := by
  have hm := decoderTurn_next hu
  obtain ⟨v, hv, hj⟩ := h.job.after_decoderTurn h.extent.outKeys h.inv hu
  have hm' := decoderTurn_next hv
  exact ⟨v, hv, hm'.schedule_eq, decoderMove_inv h.inv hm, hm.schedule_eq.trans h.alone, hj,
    hm.sameExtent.symm.trans (h.extent.trans hm'.sameExtent)⟩

/-- A host action but RESET that completes in BUSY keeps the two together. -/
theorem Tracks.after_hostTurn {s t u : State} {a : HostAction} (h : Tracks s t) (hs : s.st = .scan) (ha : a ≠ .reset)
    (hu : hostTurn a s = .next u) : ∃ v, hostTurn a t = .next v ∧ v.schedule = t.schedule ∧ Tracks s v := by
  have ht : t.st = .scan := h.job.st.symm.trans hs
  obtain ⟨v, hv⟩ := hostTurn_completes_of_sameExtent h.extent hs ht hu
  obtain ⟨hj, hsch, -⟩ := hostTurn_busy ht ha hv
  exact ⟨v, hv, hsch, h.inv, h.alone, h.job.trans hj, h.extent.trans (hostTurn_busy_sameExtent ht ha hv)⟩

/-- Outside SCAN the decoder alone changes nothing (R68). -/
theorem runSteps_quiet {s : State} (hsch : s.schedule = []) (hs : s.st ≠ .scan) (k : Nat) : runSteps k s = .next s := by
  induction k with
  | zero => rfl
  | succ k ih => rw [runSteps_succ_of_next k ((step_of_nil hsch).trans (decoderTurn_quiet hs)), ih]

/-- Turns of the decoder and of the host, while the job runs, keep the two together. -/
theorem Tracks.after_turns {turns : List Turn} {s t u : State} (h : Tracks s t) (hs : s.st = .scan)
    (hsch : t.schedule = turns) (hadm : ∀ a, .host a ∈ turns → a ≠ .reset ∧ ∃ v, hostTurn a s = .next v)
    (hu : runSteps (turns.count .decoder) s = .next u) (hscan : u.st = .scan) :
    ∃ v, runSteps turns.length t = .next v ∧ v.schedule = [] ∧ Tracks u v := by
  induction turns generalizing s t with
  | nil => cases hu; exact ⟨t, rfl, hsch, h⟩
  | cons turn turns ih =>
    have h' := h.of_schedule turns
    cases turn with
    | decoder =>
      obtain ⟨s', hs'⟩ := decoderTurn_completes h.inv
      obtain ⟨t', ht', hsch', htr⟩ := h'.after_decoderTurn hs'
      rw [List.count_cons_self, runSteps_succ_of_next _ ((step_of_nil h.alone).trans hs')] at hu
      have hscan' : s'.st = .scan := by
        by_contra hn
        rw [runSteps_quiet htr.alone hn] at hu
        cases hu
        exact hn hscan
      obtain ⟨v, hv, hrest⟩ := ih htr hscan' hsch' (fun a ha => by
        obtain ⟨hreset, w, hw⟩ := hadm a (List.mem_cons_of_mem _ ha)
        exact ⟨hreset, hostTurn_completes_of_sameExtent (decoderTurn_next hs').sameExtent hs hscan' hw⟩) hu
      refine ⟨v, ?_, hrest⟩
      rw [List.length_cons, runSteps_succ_of_next _ ((step_of_decoder (nextTurn_of_cons hsch)).trans ht'), hv]
    | host a =>
      obtain ⟨hreset, w, hw⟩ := hadm a List.mem_cons_self
      obtain ⟨t', ht', hsch', htr⟩ := h'.after_hostTurn hs hreset hw
      rw [List.count_cons_of_ne (by simp)] at hu
      obtain ⟨v, hv, hrest⟩ := ih htr hs hsch' (fun b hb => hadm b (List.mem_cons_of_mem _ hb)) hu
      refine ⟨v, ?_, hrest⟩
      have hstep : step t = .next t' := by simp [step, nextTurn_of_cons hsch, ht']
      rw [List.length_cons, runSteps_succ_of_next _ hstep, hv]

/-- Settles O58: the run with the host's turns stays together with the decoder's alone, and so does the step after. -/
theorem hostActionsInBusyLeaveTheJob : Obligations.HostActionsInBusyLeaveTheJob := by
  intro s u turns h hs hadm hu hscan
  have hstart : Tracks { s with schedule := [] } { s with schedule := turns } :=
    (Tracks.refl (h.of_lists [] _ _) rfl).of_schedule turns
  obtain ⟨t, ht, hsch, htr⟩ := hstart.after_turns hs rfl (fun a ha => (hadm a ha).imp_right fun ⟨_, hw⟩ =>
    hostTurn_completes_of_sameExtent { SameExtent.refl s with } hs hs hw) hu hscan
  refine ⟨t, ht, hsch, htr.job, fun v hv => ?_⟩
  obtain ⟨w, hw, -, htr'⟩ := htr.after_decoderTurn ((step_of_nil htr.alone).symm.trans hv)
  exact ⟨w, (step_of_nil hsch).trans hw, htr'.job⟩

end Sys2Proof.Machine
end

section
/-! SUPPORT. The host's call of the block, from supplying the buffers to collecting the result (R77, R79, R84, R112). -/

namespace Sys2Proof.Machine

/-! ### Turns on the schedule -/

theorem step_decoder_cons {s t : State} {rest : List Turn} (hsch : s.schedule = .decoder :: rest)
    (h : decoderTurn { s with schedule := rest } = .next t) : step s = .next t :=
  (step_of_decoder (nextTurn_of_cons hsch)).trans h

theorem step_host_cons {s t : State} {a : HostAction} {rest : List Turn} (hsch : s.schedule = .host a :: rest)
    (h : HostMove { s with schedule := rest } a t) : step s = .next t := by
  simp [step, nextTurn_of_cons hsch, hostTurn_eq_next.mpr h]

/-- Two host actions in a row. -/
theorem runSteps_two_hosts {s u t : State} {a b : HostAction} {rest : List Turn}
    (hsch : s.schedule = .host a :: .host b :: rest) (ha : HostMove { s with schedule := .host b :: rest } a u)
    (husch : u.schedule = .host b :: rest) (hb : HostMove { u with schedule := rest } b t) :
    runSteps 2 s = .next t := by
  rw [runSteps_succ_of_next 1 (step_host_cons hsch ha), runSteps_succ_of_next 0 (step_host_cons husch hb),
    runSteps_zero]

/-! ### The wait -/

/-- The schedule is no part of the job. -/
theorem Continues.of_schedule {s t : State} {turns : List Turn} (h : Continues { s with schedule := turns } t) :
    Continues s t := { h with }

/-- A READ leaves the job and its outcome as they are (R76). -/
theorem continues_hostReads {s : State} (h : Inv s) (r : Nat) : Continues s (s.hostReads r) :=
  { Continues.refl h with inv := hostMove_inv h (.read r) }

/-- A decoder's turn takes one off the turns left, and does not lead to IDLE (R15, R93). -/
theorem decoderMove_nears_done {s t : State} (h : Inv s) (hm : DecoderMove s t) (hs : s.st ≠ .idle) :
    t.st ≠ .idle ∧ t.stepsLeft ≤ s.stepsLeft - 1 := by
  obtain ⟨hn, rfl⟩ | ⟨hf, -, -, rfl⟩ | ⟨hf, ht⟩ := decoderMove_kinds hm
  · exact ⟨hs, by simp [stepsLeft_eq_zero.mpr hn]⟩
  · exact ⟨nofun, Nat.le_sub_one_of_lt (decoderMove_stepsLeft h hm hf)⟩
  · exact ⟨by simp [ht], Nat.le_sub_one_of_lt (decoderMove_stepsLeft h hm hf)⟩

/-- What the host has got in `t` since `s` are values of registers. -/
def GotRegisters (s t : State) : Prop :=
  ∃ answers, (∀ x ∈ answers, ∃ r v, x = .register r v) ∧ t.replies = answers ++ s.replies

theorem GotRegisters.of_replies_eq {s t : State} (h : t.replies = s.replies) : GotRegisters s t := ⟨[], nofun, h⟩

theorem GotRegisters.trans {s t u : State} (h : GotRegisters s t) (h' : GotRegisters t u) : GotRegisters s u := by
  obtain ⟨as, has, ht⟩ := h
  obtain ⟨bs, hbs, hu⟩ := h'
  exact ⟨bs ++ as, fun x hx => (List.mem_append.mp hx).elim (hbs x) (has x), by rw [hu, ht, List.append_assoc]⟩

theorem gotRegisters_hostReads (s : State) (r : Nat) : GotRegisters s (s.hostReads r) :=
  ⟨[.register r (s.readRegister r)], fun _ hx => ⟨r, _, List.mem_singleton.mp hx⟩, rfl⟩

/-- One turn of the host's wait: the decoder's brings the job nearer to its end, and a READ leaves it as it is (R76). -/
theorem wait_turn {s : State} {turn : Turn} {rest : List Turn} (h : Inv s) (hsch : s.schedule = turn :: rest)
    (hturn : turn = .decoder ∨ ∃ r, turn = .host (.read r)) (hs : s.st ≠ .idle) :
    ∃ t, step s = .next t ∧ t.schedule = rest ∧ t.st ≠ .idle ∧ t.stepsLeft ≤ s.stepsLeft - [turn].count .decoder ∧
      Continues s t ∧ GotRegisters s t := by
  have hi : Inv { s with schedule := rest } := h.of_lists rest _ _
  obtain rfl | ⟨r, rfl⟩ := hturn
  · obtain ⟨t, ht⟩ := decoderTurn_completes hi
    have hm := decoderTurn_next ht
    obtain ⟨hidle, hleft⟩ := decoderMove_nears_done hi hm hs
    exact ⟨t, step_decoder_cons hsch ht, hm.schedule_eq, hidle, hleft, (hm.continues hi).of_schedule,
      .of_replies_eq (by rw [decoderMove_frame hm])⟩
  · exact ⟨_, step_host_cons hsch (.read r), rfl, hs, Nat.le_refl s.stepsLeft, (continues_hostReads hi r).of_schedule,
      gotRegisters_hostReads s r⟩

/-- A wait with as many decoder's turns as R93's bound allows, or more, and any READs among them, ends in DONE. -/
theorem runSteps_wait {wait rest : List Turn} {s : State} (h : Inv s) (hsch : s.schedule = wait ++ rest)
    (hwait : ∀ x ∈ wait, x = .decoder ∨ ∃ r, x = .host (.read r)) (hs : s.st ≠ .idle)
    (hk : s.stepsLeft ≤ wait.count .decoder) :
    ∃ t, runSteps wait.length s = .next t ∧ t.schedule = rest ∧ t.st = .done ∧ Continues s t ∧ GotRegisters s t := by
  induction wait generalizing s with
  | nil =>
    have hn := stepsLeft_eq_zero.mp (Nat.le_zero.mp hk)
    refine ⟨s, rfl, hsch, ?_, .refl h, .of_replies_eq rfl⟩
    cases hf : s.st with
    | idle => exact absurd hf hs
    | scan => exact absurd hf hn
    | done => rfl
  | cons turn wait ih =>
    obtain ⟨u, hu, husch, hus, hleft, hcu, hgu⟩ := wait_turn h hsch (hwait turn List.mem_cons_self) hs
    rw [← List.singleton_append, List.count_append] at hk
    obtain ⟨t, ht, hrest, hdone, hct, hgt⟩ := ih hcu.inv husch (fun x hx => hwait x (List.mem_cons_of_mem _ hx)) hus
      (by omega)
    exact ⟨t, (runSteps_succ_of_next wait.length hu).trans ht, hrest, hdone, hcu.trans hct, hgu.trans hgt⟩

/-! ### The launch and the result -/

/-- A started job that came to DONE holds the decode call's result, byte for byte (R73, R77). -/
theorem JobStarted.result {s t : State} {bytes : List Byte} (h : JobStarted s) (hc : Continues s t)
    (hdone : t.st = .done) (hb : Mem.readRun s.input.cells s.inLen 0 = some bytes) :
    t.soFar = decodeCall bytes s.inLen s.outCap ∧ Mem.readRun t.output.cells t.wr 0 = some t.soFar.bytes := by
  constructor
  · rw [← h.outcome_eq hb, ← hc.outcome, State.outcome, remaining_of_not_scan (by simp [hdone]),
      CallResult.andThen_nothing]
  · refine Mem.readRun_eq_bytesAt fun j hj => ?_
    have := hc.inv.wrBound
    rw [hc.outCap] at this
    rw [Mem.isSome_read_iff, hc.offsets, ← Mem.isSome_read_iff]
    exact (h.inv.covers h.st).output _ (by omega)

/-- The call looks at the first `l` bytes of its input alone (R16). -/
theorem decodeCall_take (bytes : List Byte) (l c : Nat) : decodeCall (bytes.take l) l c = decodeCall bytes l c := by
  simp [decodeCall, List.take_take]

/-- The bytes of a supplied buffer, read from its start. -/
theorem readRun_ofBytes (base : Nat) {bytes : List Byte} {n : Nat} (h : n ≤ bytes.length) :
    Mem.readRun (Buffer.ofBytes base bytes).cells n 0 = some (bytes.take n) := by
  refine (Mem.readRun_eq_some_iff _ _ _ _).mpr ⟨by simpa using h, fun k hk => ?_⟩
  simp [Buffer.ofBytes, List.getElem?_take_of_lt hk]

/-- The host supplies the buffers and starts a job in them, outside a job whose result it has not been told of: two
steps to a started job (R74, R112). -/
theorem place_and_start {s : State} {ib ob l c : Nat} {is os : List Byte} {rest : List Turn} (h : Inv s)
    (hp : s.resultPending = false)
    (hsch : s.schedule = .host (.place ib is ob os) :: .host (.start l c) :: rest) (hl : l ≤ is.length)
    (hc : c ≤ os.length) (hlw : l < 2 ^ Config.inLenW) (hcw : c < 2 ^ Config.outCapW)
    (hapart : (Buffer.ofBytes ib is).overlaps l (Buffer.ofBytes ob os) c = false) :
    ∃ t, runSteps 2 s = .next t ∧ JobStarted t ∧ t.schedule = rest ∧ t.input = Buffer.ofBytes ib is ∧ t.inLen = l ∧
      t.outCap = c ∧ t.replies = s.replies := by
  have hplace (turns : List Turn) : HostMove { s with schedule := turns } (.place ib is ob os)
      ({ s with schedule := turns }.withBuffers (Buffer.ofBytes ib is) (Buffer.ofBytes ob os)) := .place ib is ob os hp
  have hs : s.st ≠ .scan := fun hs => by simp [resultPending_of_scan hs] at hp
  have hlaunch : launchRefusal
      ({ s with schedule := rest }.withBuffers (Buffer.ofBytes ib is) (Buffer.ofBytes ob os)) l c = none :=
    launchRefusal_eq_none.mpr ⟨hl.trans_eq (Mem.length_ofBytesFrom 0 is).symm,
      hc.trans_eq (Mem.length_ofBytesFrom 0 os).symm, hapart, hlw, hcw⟩
  have hinv := (hostMove_inv (h.of_lists rest _ _) (hplace rest)).startJob hlaunch
  exact ⟨_, runSteps_two_hosts hsch (hplace _) rfl (.startTaken l c hs hlaunch), ⟨hinv, rfl, rfl, rfl, rfl, rfl, rfl⟩,
    rfl, rfl, rfl, rfl, rfl⟩

/-- In DONE the host reads STATUS and takes the result: two steps (R77, R84). -/
theorem status_and_collect {s : State} {bytes : List Byte} (hs : s.st = .done)
    (hsch : s.schedule = [.host (.read 0), .host .collect]) (hb : Mem.readRun s.output.cells s.wr 0 = some bytes) :
    ∃ t, runSteps 2 s = .next t ∧ t.st = .done ∧ t.statusWord = s.statusWord ∧
      t.replies = .result bytes s.rd s.trunc s.clamp s.short :: .register 0 s.statusWord.toNat :: s.replies := by
  have hread : (s.hostReads 0).doneRead = true := by simp [hs]
  exact ⟨_, runSteps_two_hosts hsch (.read 0) rfl (.collect bytes hs hread hb), hs, rfl, rfl⟩

/-- Settles O55: two steps start the job, the wait brings it to DONE with the decode call's result, and two steps take
the result. -/
theorem hostCallReturnsTheDecode : Obligations.HostCallReturnsTheDecode := by
  intro s ib ob is os l c wait h hst hwait hk hl hc hlw hcw hapart turns r
  have hturns : turns =
      .host (.place ib is ob os) :: .host (.start l c) :: (wait ++ [.host (.read 0), .host .collect]) := rfl
  have hlen : turns.length = 2 + (wait.length + 2) := by simp [hturns]; omega
  obtain ⟨u, hu, hjob, husch, huin, hul, huc, hurep⟩ := place_and_start (s := { s with schedule := turns })
    (h.of_lists _ _ _) (resultPending_eq_false.mpr hst) hturns hl hc hlw hcw hapart
  have hleft : u.stepsLeft ≤ wait.count .decoder := by
    have := stepsLeft_le u
    rw [State.inRem, State.outRem, hjob.rd, hjob.wr, hul, huc] at this
    omega
  obtain ⟨v, hv, hvsch, hdone, hcv, answers, hans, hvrep⟩ :=
    runSteps_wait hjob.inv husch hwait (by simp [hjob.st]) hleft
  obtain ⟨hsofar, hread⟩ := hjob.result hcv hdone (by rw [huin, hul]; exact readRun_ofBytes ib hl)
  obtain ⟨t, ht, htdone, htw, htrep⟩ := status_and_collect hdone hvsch hread
  refine ⟨t, answers, by rw [hlen, runSteps_add _ hu, runSteps_add _ hv, ht], htdone, hans, ?_⟩
  have hr : r = v.soFar := by rw [hsofar, hul, huc, decodeCall_take]
  have hshort : v.short = decide (r.bytes.length < c) := by
    simp [hr, State.soFar, State.short, hdone, hcv.outCap, huc]
  rw [htrep, htw, hvrep, hurep, hshort, hr]
  rfl

end Sys2Proof.Machine
end

section
/-! SUPPORT. What the host knows of the end of a job, and the result it takes (R77, R84, R113, R114). -/

namespace Sys2Proof.Machine

@[simp] theorem State.resetBlock_doneRead (s : State) : s.resetBlock.doneRead = false := by
  unfold State.resetBlock; cases s.st <;> rfl

/-- Only a READ writes `doneRead` to true; START and RESET clear it, and the other host actions leave it and `st`
alone. -/
theorem hostMove_doneRead {a : HostAction} {s t : State} (h : Inv s) (hm : HostMove s a t) :
    t.doneRead = true ↔ (s.doneRead = true ∧ t.st = .done) ∨ (a = .read 0 ∧ s.st = .done) := by
  have hdone : s.doneRead = true ∧ s.st = .done ↔ s.doneRead = true := and_iff_left_of_imp h.doneReadInDone
  cases hm with
  | reset => simp
  | startTaken l c => simp
  | read r => simp [hdone]
  | startIgnored | place | writeIn | readIn | readInFree | writeOut | readOut | readOutFree | collect =>
    simp [hdone]

/-- Settles O59: the decoder leaves the mark alone, and it has no step in DONE; for the host, by its action. -/
theorem onlyAStatusReadShowsDone : Obligations.OnlyAStatusReadShowsDone := by
  intro s t h hst
  obtain ⟨turns, ⟨hturn, hm⟩ | ⟨a, hturn, hm⟩⟩ := step_moves hst
  · have hdone : s.doneRead = true → t.st = .done := fun hd => by
      have hs := h.doneReadInDone hd
      cases hm with
      | quiet => exact hs
      | _ hscan => cases hs.symm.trans hscan
    simpa [hturn, hm.doneRead_eq] using hdone
  · rw [hturn, Turn.host.injEq]
    exact (hostMove_doneRead (h.of_lists turns _ _) hm :)

/-- Settles O46: the first `wr` bytes of OUT exist and are the result; a result that is pending, or that there is none
of, is refused. -/
theorem collectGivesTheResult : Obligations.CollectGivesTheResult := by
  intro s h
  constructor
  · intro hs hd hwr
    obtain ⟨bytes, hb⟩ := Mem.readRun_of_full h.outputFull (n := s.wr) (a := 0) (by simpa [Buffer.size] using hwr)
    obtain ⟨hlen, hread⟩ := (Mem.readRun_eq_some_iff _ _ _ _).mp hb
    have hshort : s.short = decide (s.wr < s.outCap) := by simp [State.short, hs]
    refine ⟨bytes, hlen, by simpa using hread, ?_⟩
    rw [← hshort]
    exact hostTurn_eq_next.mpr (.collect bytes hs hd hb)
  · intro hn
    cases hs : s.st with
    | idle | scan => simp [hostTurn, hostCollect, hs]
    | done =>
      have hd : s.doneRead = false := hn.resolve_left (not_not.mpr hs)
      simp [hostTurn, hostCollect, hs, State.resultPending, hd]

end Sys2Proof.Machine
end

section
/-! SUPPORT. START: when it takes effect, and what refuses it (R74, R75, R81, R83). -/

namespace Sys2Proof.Machine

/-- Settles O35: the launch conditions are `launchRefusal`'s, and the registers written are `startJob`'s. -/
theorem startBeginsAJob : Obligations.StartBeginsAJob := by
  intro s l c hs hl hc hapart hlw hcw
  have hlaunch : launchRefusal s l c = none := launchRefusal_eq_none.mpr ⟨hl, hc, hapart, hlw, hcw⟩
  exact ⟨s.startJob l c, hostTurn_eq_next.mpr (.startTaken l c hs hlaunch), rfl⟩

/-- Settles O36: this is `HostMove`'s START in BUSY. -/
theorem startInBusyIsIgnored : Obligations.StartInBusyIsIgnored := fun _ l c hs =>
  hostTurn_eq_next.mpr (.startIgnored l c hs)

/-- Outside BUSY a START is refused for what `launchRefusal` finds (R81, R83). -/
theorem hostStart_refused {s : State} {l c : Nat} {r : Refusal} (hs : s.st ≠ .scan)
    (hr : launchRefusal s l c = some r) : hostTurn (.start l c) s = .refused r := by
  cases hst : s.st with
  | scan => exact absurd hst hs
  | idle | done => simp [hostTurn, hostStart, hst, hr]

/-- Settles O37: none of the three launches meets the launch conditions. -/
theorem badLaunchesAreRefused : Obligations.BadLaunchesAreRefused := by
  intro s l c hs hbad
  have hsome : launchRefusal s l c ≠ none := fun hnone => by
    obtain ⟨hl, hc, hapart, -, -⟩ := launchRefusal_eq_none.mp hnone
    rcases hbad with hbad | hbad | hbad
    · omega
    · omega
    · simp [overlaps_eq_true.mpr hbad] at hapart
  obtain ⟨r, hr⟩ := Option.ne_none_iff_exists'.mp hsome
  exact ⟨r, hostStart_refused hs hr⟩

end Sys2Proof.Machine
end

section
/-! SUPPORT. Which system addresses a job owns, and the accesses to them by its own host and by that of another block
(R80 to R82, R84, R113). -/

namespace Sys2Proof.Machine

theorem ownsInputAt_one {s : State} {x : Nat} :
    s.ownsInputAt x 1 = true ↔ s.st = .scan ∧ s.input.base ≤ x ∧ x < s.input.base + s.inLen := by
  simp [State.ownsInputAt, rangesMeet_one]

theorem ownsOutputAt_one {s : State} {x : Nat} :
    s.ownsOutputAt x 1 = true ↔ s.resultPending = true ∧ s.output.base ≤ x ∧ x < s.output.base + s.outCap := by
  simp [State.ownsOutputAt, rangesMeet_one]

/-- An offset of IN is outside a running job's input exactly when it is not below `in_len` (R82). -/
theorem ownsInputAt_offset {s : State} {i : Nat} :
    s.ownsInputAt (s.input.base + i) 1 = false ↔ (s.st = .scan → s.inLen ≤ i) := by
  rw [← Bool.not_eq_true, ownsInputAt_one]
  simp

theorem ownsOutputAt_offset {s : State} {j : Nat} :
    s.ownsOutputAt (s.output.base + j) 1 = false ↔ (s.resultPending = true → s.outCap ≤ j) := by
  rw [← Bool.not_eq_true, ownsOutputAt_one]
  simp

/-- Settles O38: each access falls on an address the job owns, and no check before that one refuses it. -/
theorem busyBuffersAreTheJobs : Obligations.BusyBuffersAreTheJobs := by
  intro s
  refine ⟨fun hs i b hi => ?_, fun hp => ?_, fun hs j b hj h1 h2 => ?_, fun hs i b hi h1 h2 => ?_⟩
  · have hown : s.ownsInputAt (s.input.base + i) 1 = true := ownsInputAt_one.mpr ⟨hs, by omega⟩
    exact ⟨by simp [hostTurn, hostWriteIn, hown], by simp [hostTurn, hostReadIn, hown]⟩
  · have hpend := resultPending_eq_true.mpr hp
    refine ⟨fun j b hj => ?_, fun ib is ob os => by simp [hostTurn, hostPlace, hpend]⟩
    have hown : s.ownsOutputAt (s.output.base + j) 1 = true := ownsOutputAt_one.mpr ⟨hpend, by omega⟩
    simp [hostTurn, hostWriteOut, hown]
  · have hout : s.ownsOutputAt (s.output.base + j) 1 = false := ownsOutputAt_offset.mpr fun _ => hj
    have hin : s.ownsInputAt (s.output.base + j) 1 = true := ownsInputAt_one.mpr ⟨hs, h1, h2⟩
    simp [hostTurn, hostWriteOut, hout, hin]
  · have hin : s.ownsInputAt (s.input.base + i) 1 = false := ownsInputAt_offset.mpr fun _ => hi
    have hout : s.ownsOutputAt (s.input.base + i) 1 = true :=
      ownsOutputAt_one.mpr ⟨resultPending_of_scan hs, h1, h2⟩
    simp [hostTurn, hostWriteIn, hin, hout]

/-- Settles O60: the read completes in the two ways of `HostMove`, as the output owns the byte's address or not. -/
theorem hostReadsOfInputAnswerTheByte : Obligations.HostReadsOfInputAnswerTheByte := by
  intro s i b hb hi
  have hin := ownsInputAt_offset.mpr hi
  exact ⟨fun ho => hostTurn_eq_next.mpr (.readIn i b hin ho hb),
    fun ho => hostTurn_eq_next.mpr (.readInFree i hin ho (by simp [hb]))⟩

/-! ### Other blocks -/

/-- What another block's job is found to own or to share refuses the step (R81, log 14). -/
theorem System.step_refused {sys : System} {k : Nat} {s : State} (hs : sys.instances[k]? = some s)
    (h : sys.launchConflict k s = true ∨ sys.accessConflict k s = true) : sys.step k = .refused .buffersShared := by
  simp [System.step, hs, h]

/-- The operands of a START that takes effect (R74). -/
theorem launching_eq_some {s u : State} {l c : Nat} (hs : s.st ≠ .scan) (ht : s.nextTurn = (.host (.start l c), u)) :
    s.launching = some (l, c) := by
  cases hst : s.st with
  | scan => exact absurd hst hs
  | idle | done => simp [State.launching, hst, ht]

/-- Settles O57: the other block is among those that the two checks of the system's step go through. -/
theorem sharedBuffersAreRefused : Obligations.SharedBuffersAreRefused := by
  intro sys j k s o hjk hs ho
  have hmem : o ∈ sys.instances.eraseIdx k := List.mem_eraseIdx_iff_getElem?.mpr ⟨j, hjk, ho⟩
  refine ⟨fun u l c hns ht hos hmeet => System.step_refused hs (.inl ?_), fun hown => System.step_refused hs (.inr ?_)⟩
  · have hshare : s.sharesWith l c o = true := by simpa [State.sharesWith, hos, or_assoc] using hmeet
    rw [System.launchConflict, launching_eq_some hns ht]
    exact List.any_eq_true.mpr ⟨o, hmem, hshare⟩
  · exact List.any_eq_true.mpr ⟨o, hmem, by simpa using hown⟩

end Sys2Proof.Machine
end

section
/-! SUPPORT. A byte-level job is over within R93's bound. -/

namespace Sys2Proof.Machine

/-- A job that has just been started has at most `in_len + out_cap + 1` steps to take (R93). -/
theorem JobStarted.stepsLeft_le {s : State} (h : JobStarted s) : s.stepsLeft ≤ s.inLen + s.outCap + 1 := by
  have hle := Machine.stepsLeft_le s
  rwa [State.inRem, State.outRem, h.rd, h.wr] at hle

/-- Settles O50: every turn of a running job brings it nearer to its end (`decoderMove_stepsLeft`), and a started job is
no further from it than the bound. -/
theorem byteLevelJobEnds : Obligations.ByteLevelJobEnds := by
  intro s h hsch _
  obtain ⟨t, hrun, hdone, -⟩ := runSteps_to_done h.inv hsch (by simp [h.st]) h.stepsLeft_le
  exact ⟨t, hrun, hdone⟩

end Sys2Proof.Machine
end

section
/-! SUPPORT. The engine's four steps, as R87 to R90 state them. -/

namespace Sys2Proof.Machine

/-- The length a REP declares, from its control byte (R54). -/
theorem repLength_of_decodeByte {c : Byte} {m : RunField} (hd : decodeByte c = .rep m) :
    repLength m = 257 - c.toNat := by
  rw [← encodeByte_decodeByte c, hd, toNat_encodeByte_rep, repLength]
  omega

/-- Settles O19: `decoderTurn_ctrl` answers what `engineDemux` makes of the unit, one case per class. -/
theorem engineCtrlDemultiplexes : Obligations.EngineCtrlDemultiplexes := by
  intro s c hs hi hp hwr hrd hc
  rw [decoderTurn_ctrl hs hi hp ⟨hwr, hrd⟩ hc]
  refine ⟨fun hd => ?_, fun m hd => ?_, fun m hd => ?_⟩
  · rw [hd, engineDemux, ← hp]; rfl
  · rw [hd]; rfl
  · rw [hd, engineDemux, repLength_of_decodeByte hd]; rfl

variable {s u : State}

/-- The engine's LITC step (R88). -/
theorem decoderTurn_copy (hs : s.st = .scan) (hi : s.impl = .byteLevel) (hp : s.ph = .litc) (hn : s.cnt ≠ 0)
    {b : Byte} (hb : Mem.read s.input.cells s.rd = some b) (hu : memWrite s s.wr b = .ok u) :
    decoderTurn s = .next (u.advance 1 1).countDown := by
  rw [decoderTurn_litc hs hi hp]
  exact engineLitc_eq_next.mpr ⟨hn, b, u, hb, hu, rfl⟩

/-- The engine's REMIT step (R90). -/
theorem decoderTurn_emit (hs : s.st = .scan) (hi : s.impl = .byteLevel) (hp : s.ph = .remit) (hn : s.cnt ≠ 0)
    (hu : memWrite s s.wr s.val = .ok u) : decoderTurn s = .next (u.advance 0 1).countDown := by
  rw [decoderTurn_remit hs hi hp]
  exact engineRemit_eq_next.mpr ⟨hn, u, hu, rfl⟩

/-- Settles O20: the step stores one byte of IN, and its byte and its frame are those of `Mem.write`. -/
theorem engineLitcCopiesOneByte : Obligations.EngineLitcCopiesOneByte := by
  intro s b hs hi hp hn hb ho
  refine ⟨_, decoderTurn_copy hs hi hp (Nat.ne_zero_of_lt hn) hb (memWrite_eq_ok.mpr ⟨ho, rfl⟩), ?_, rfl,
    Mem.read_write_same b ho, fun _ => Mem.read_write_other b⟩
  rw [← hp]; rfl

/-- Settles O21: at the end of the input the value byte is missing, and otherwise it is the byte at `rd`. -/
theorem engineRfetchTakesTheValue : Obligations.EngineRfetchTakesTheValue := by
  intro s hs hi hp
  refine ⟨fun hv => ?_, fun v hv hr => decoderTurn_rfetch_value hs hi hp hv hr⟩
  rw [decoderTurn_rfetch_missing hs hi hp hv, State.noteTrunc, Bool.or_true]

/-- Settles O22: the step stores the value byte, and its byte and its frame are those of `Mem.write`. -/
theorem engineRemitEmitsTheValue : Obligations.EngineRemitEmitsTheValue := by
  intro s hs hi hp hn ho
  refine ⟨_, decoderTurn_emit hs hi hp (Nat.ne_zero_of_lt hn) (memWrite_eq_ok.mpr ⟨ho, rfl⟩), ?_, rfl,
    Mem.read_write_same s.val ho, fun _ => Mem.read_write_other s.val⟩
  rw [← hp]; rfl

end Sys2Proof.Machine
end

section
/-! SUPPORT. The byte-level engine simulates the unit-level machine: one byte a step, it does what the body of the unit
does in one step, and it is at a unit boundary only when that is done (R65 to R67, R87 to R90, R92). -/

namespace Sys2Proof.Machine

/-! ### Runs to the unit boundary -/

/-- The machine goes from `s` to `t`, which is the first state at a unit boundary, `s` included (R86). -/
inductive ToBoundary : State → State → Prop where
  | here {s : State} (hp : s.ph = .ctrl) : ToBoundary s s
  | step {s u t : State} (hp : s.ph ≠ .ctrl) (hu : step s = .next u) (h : ToBoundary u t) : ToBoundary s t

theorem ToBoundary.of_eq {s t t' : State} (h : ToBoundary s t) (ht : t' = t) : ToBoundary s t' := by
  rwa [ht]

/-- Such a run as a number of steps. -/
theorem ToBoundary.runSteps {s t : State} (h : ToBoundary s t) : ∃ k, runSteps k s = .next t ∧ t.ph = .ctrl ∧
    ∀ j w, j < k → Machine.runSteps j s = .next w → w.ph ≠ .ctrl := by
  induction h with
  | here hp => exact ⟨0, rfl, hp, nofun⟩
  | step hp hu _ ih =>
    obtain ⟨k, hrun, hctrl, hinside⟩ := ih
    refine ⟨k + 1, (runSteps_succ_of_next k hu).trans hrun, hctrl, fun j w hj hw => ?_⟩
    cases j with
    | zero => cases hw; exact hp
    | succ j => exact hinside j w (Nat.lt_of_succ_lt_succ hj) ((runSteps_succ_of_next j hu).symm.trans hw)

/-! ### The loops of the unit-level bodies read nothing but the buffers -/

theorem copyRun_of_same_buffers {s s' w : State} {n src dst : Nat} (h : copyRun n src dst s = .ok w)
    (hi : s'.input = s.input) (ho : s'.output = s.output) :
    copyRun n src dst s' = .ok { s' with output := w.output } := by
  have := copyRun_frame (fun u => { s' with output := u.output }) (fun _ => rfl) (fun _ _ => rfl) n src dst s
    fun u hu _ _ _ => by rw [hu, ← hi]
  rwa [h, ← ho] at this

theorem fillRun_of_same_output {s s' w : State} {n dst : Nat} {v : Byte} (h : fillRun n dst v s = .ok w)
    (ho : s'.output = s.output) : fillRun n dst v s' = .ok { s' with output := w.output } := by
  have := fillRun_frame (fun u => { s' with output := u.output }) (fun _ => rfl) (fun _ _ => rfl) n dst v s
  rwa [h, ← ho] at this

/-! ### The engine inside a unit -/

/-- `s` at the unit boundary after a unit that has read `n` bytes more and stored `k`, which are in OUT `o`. -/
def State.afterUnit (s : State) (n k : Nat) (o : Buffer) : State :=
  { s.advance n k with ph := .ctrl, cnt := 0, output := o }

/-- With nothing left to move the engine is at the boundary. -/
theorem State.afterUnit_nothing {s : State} (hp : s.ph = .ctrl) (hn : s.cnt = 0) : s.afterUnit 0 0 s.output = s := by
  cases s; simp_all [State.afterUnit, State.advance]

/-- What moved in one step and what moves in the rest of the unit add up. -/
theorem Wrote.afterUnit_countDown {s u : State} {dst j : Nat} {f : Nat → Option Byte} (h : Wrote s u dst j f)
    (a b n k : Nat) (o : Buffer) : (u.advance a b).countDown.afterUnit n k o = s.afterUnit (a + n) (b + k) o := by
  rw [h.frame]
  simp [State.afterUnit, State.advance, State.countDown, Nat.add_assoc]

/-- The engine, with the decoder alone to move, runs a job and has `n` bytes left to move in its unit (R86). -/
structure EngineRuns (s : State) (n : Nat) : Prop where
  st       : s.st = .scan
  impl     : s.impl = .byteLevel
  schedule : s.schedule = []
  cnt      : s.cnt = n

theorem EngineRuns.countDown {s u : State} {n dst j a b : Nat} {f : Nat → Option Byte} (h : EngineRuns s (n + 1))
    (hw : Wrote s u dst j f) : EngineRuns (u.advance a b).countDown n :=
  ⟨hw.st_eq.trans h.st, hw.impl_eq.trans h.impl, hw.schedule_eq.trans h.schedule, by simp [hw.cnt_eq, h.cnt]⟩

section
variable {n : Nat} {s w : State} (hr : EngineRuns s n)
include hr

/-- LITC steps do what the copy loop does (R65, R88). -/
theorem toBoundary_of_copyRun (hp : s.ph = if n = 0 then .ctrl else .litc) (h : copyRun n s.rd s.wr s = .ok w) :
    ToBoundary s (s.afterUnit n n w.output) := by
  induction n generalizing s w with
  | zero =>
    cases h
    rw [State.afterUnit_nothing hp hr.cnt]
    exact .here hp
  | succ n ih =>
    simp only [copyRun] at h
    split at h
    · cases h
    · rename_i b hb
      split at h
      · cases h
      · rename_i u hu
        have hw := wrote_one (f := fun _ => some b) hu rfl
        have hturn := decoderTurn_copy hr.st hr.impl hp (by simp [hr.cnt]) (memRead_eq_ok.mp hb) hu
        have hloop := copyRun_of_same_buffers (s' := (u.advance 1 1).countDown) h rfl rfl
        have hrest := ih (hr.countDown hw) (by simp [hw.cnt_eq, hw.ph_eq, hr.cnt, hp])
          (by simpa [hw.rd_eq, hw.wr_eq] using hloop)
        rw [hw.afterUnit_countDown, Nat.add_comm 1] at hrest
        exact .step (by simp [hp]) ((step_of_nil hr.schedule).trans hturn) hrest

/-- REMIT steps do what the fill loop does (R66, R90). -/
theorem toBoundary_of_fillRun (hp : s.ph = if n = 0 then .ctrl else .remit) (h : fillRun n s.wr s.val s = .ok w) :
    ToBoundary s (s.afterUnit 0 n w.output) := by
  induction n generalizing s w with
  | zero =>
    cases h
    rw [State.afterUnit_nothing hp hr.cnt]
    exact .here hp
  | succ n ih =>
    simp only [fillRun] at h
    split at h
    · cases h
    · rename_i u hu
      have hw := wrote_one (f := fun _ => some s.val) hu rfl
      have hturn := decoderTurn_emit hr.st hr.impl hp (by simp [hr.cnt]) hu
      have hloop := fillRun_of_same_output (s' := (u.advance 0 1).countDown) h rfl
      have hrest := ih (hr.countDown hw) (by simp [hw.cnt_eq, hw.ph_eq, hr.cnt, hp])
        (by simpa [hw.wr_eq, hw.val_eq] using hloop)
      rw [hw.afterUnit_countDown, Nat.add_comm 1] at hrest
      exact .step (by simp [hp]) ((step_of_nil hr.schedule).trans hturn) hrest

end

/-! ### The engine's run through one unit -/

/-- `s` as the unit-level machine. -/
def State.asUnitLevel (s : State) : State := { s with impl := .unitLevel }

/-- `u` as the byte-level engine, with the value byte `v`. -/
def State.asByteLevel (u : State) (v : Byte) : State := { u with impl := .byteLevel, val := v }

/-- `s` after the engine's RFETCH step that took the value byte `v` of a REP of declared length `len` (R89). -/
def State.tookValue (s : State) (len : Nat) (v : Byte) : State :=
  { (s.advance 1 0).noteRep len with val := v, cnt := repCount s len, ph := .remit }

/-! `s` stands at the unit boundary behind a control byte: the unit-level machine runs the unit's body there, the engine
demultiplexes the unit. Where the two end, their states are compared with `s`'s `impl`, `ph` and `cnt` put in. -/

section
variable {s u : State} {m : RunField} (hr : EngineRuns s 0) (hp : s.ph = .ctrl)
include hr hp

/-- LIT (R65, R87, R88). -/
theorem toBoundary_of_lit (h : exec (.lit m) s.asUnitLevel = .next u) :
    ToBoundary (engineDemux (.lit m) s) (u.asByteLevel s.val) := by
  obtain ⟨w, hw, rfl⟩ := exec_lit_eq_next.mp h
  have hloop := copyRun_of_same_buffers (s' := engineDemux (.lit m) s) hw rfl rfl
  have hrun : EngineRuns (engineDemux (.lit m) s) (litCount s (litLength m)) := ⟨hr.st, hr.impl, hr.schedule, rfl⟩
  refine (toBoundary_of_copyRun hrun rfl hloop).of_eq ?_
  rw [(copyRun_ok hw).frame]
  cases s; cases hp; cases hr.impl; cases hr.cnt; rfl

/-- REP with no value byte (R66, R87, R89). -/
theorem toBoundary_of_rep_missing (hv : s.rd = s.inLen) :
    ToBoundary (engineDemux (.rep m) s) ((s.asUnitLevel.noteTrunc true).asByteLevel s.val) := by
  have hturn := decoderTurn_rfetch_missing (s := engineDemux (.rep m) s) hr.st hr.impl rfl hv
  refine .step nofun ((step_of_nil (s := engineDemux (.rep m) s) hr.schedule).trans hturn) ?_
  refine .of_eq (.here rfl) ?_
  cases s; cases hp; cases hr.impl; cases hr.cnt; rfl

/-- REP with its value byte (R66, R87, R89, R90). -/
theorem toBoundary_of_rep_value (hm : m ≠ 0#7) (hwr : s.wr < s.outCap) (hv : s.rd ≠ s.inLen) {v : Byte}
    (hread : Mem.read s.input.cells s.rd = some v) (h : repEmit (repLength m) v (s.asUnitLevel.advance 1 0) = .next u) :
    ToBoundary (engineDemux (.rep m) s) (u.asByteLevel v) := by
  obtain ⟨w, hw, rfl⟩ := repEmit_eq_next.mp h
  have hturn := decoderTurn_rfetch_value (s := engineDemux (.rep m) s) hr.st hr.impl rfl hv hread
  refine .step nofun ((step_of_nil (s := engineDemux (.rep m) s) hr.schedule).trans hturn) ?_
  have hpos : repCount s (repLength m) ≠ 0 := by
    have := (repLength_bounds hm).1
    simp only [repCount, State.outRem]; omega
  have hloop := fillRun_of_same_output (s' := s.tookValue (repLength m) v) hw rfl
  have hrun : EngineRuns (s.tookValue (repLength m) v) (repCount s (repLength m)) :=
    ⟨hr.st, hr.impl, hr.schedule, rfl⟩
  refine (toBoundary_of_fillRun hrun (if_neg hpos).symm hloop).of_eq ?_
  rw [(fillRun_ok hw).frame]
  cases s; cases hp; cases hr.impl; cases hr.cnt; rfl

/-- Whatever the unit, the engine's run through it ends where its body does (R92). -/
theorem toBoundary_of_exec (hwr : s.wr < s.outCap) {i : Instr} (h : exec i s.asUnitLevel = .next u) :
    ∃ v, ToBoundary (engineDemux i s) (u.asByteLevel v) := by
  cases i with
  | nop =>
    cases h
    refine ⟨s.val, .of_eq (.here rfl) ?_⟩
    cases s; cases hp; cases hr.impl; rfl
  | lit m => exact ⟨s.val, toBoundary_of_lit hr hp h⟩
  | rep m =>
    obtain ⟨hm, ⟨hv, rfl⟩ | ⟨hv, v, -, hread, -⟩⟩ := execRep_next h
    · exact ⟨s.val, toBoundary_of_rep_missing hr hp hv⟩
    · rw [exec_rep_value hm hv hread] at h
      exact ⟨v, toBoundary_of_rep_value hr hp hm hwr hv hread h⟩

end

/-- Settles O51: at a bound both machines END; otherwise the engine fetches the unit in its CTRL step and runs through
it to the next boundary, where it is what the unit's body makes of the unit-level machine. -/
theorem byteEngineSimulatesTheUnitMachine : Obligations.ByteEngineSimulatesTheUnitMachine := by
  intro s u h hs hi hp hsch hu
  have hu : decoderTurn s.asUnitLevel = .next u := (step_of_nil (s := s.asUnitLevel) hsch).symm.trans hu
  obtain ⟨t, v, hctrl, hrun⟩ : ∃ t v, decoderTurn s = .next t ∧ ToBoundary t (u.asByteLevel v) := by
    by_cases he : s.wr = s.outCap ∨ s.rd = s.inLen
    · rw [decoderTurn_end (s := s.asUnitLevel) hs (.inl rfl) he] at hu
      cases hu
      refine ⟨s.finish, s.val, decoderTurn_end hs (.inr hp) he, .of_eq (.here hp) ?_⟩
      cases s; cases hi; rfl
    · have he := not_or.mp he
      obtain ⟨c, hc⟩ := Option.isSome_iff_exists.mp ((h.covers hs).input s.rd (h.room he).1)
      rw [decoderTurn_unit (s := s.asUnitLevel) hs rfl he hc] at hu
      have hr : EngineRuns (s.advance 1 0) 0 := ⟨hs, hi, hsch, (engineAgrees_ctrl hp).mp h.engine⟩
      obtain ⟨v, hrun⟩ := toBoundary_of_exec hr hp (Nat.lt_of_le_of_ne h.wrBound he.1) hu
      exact ⟨_, v, decoderTurn_ctrl hs hi hp he hc, hrun⟩
  obtain ⟨k, hk, hend, hinside⟩ := hrun.runSteps
  have hfirst (j : Nat) := runSteps_succ_of_next j ((step_of_nil hsch).trans hctrl)
  refine ⟨k + 1, u.asByteLevel v, Nat.succ_pos k, (hfirst k).trans hk, rfl, hend, fun j w hj hjk hw => ?_⟩
  obtain ⟨j, rfl⟩ := Nat.exists_eq_add_of_le' hj
  exact hinside j w (Nat.lt_of_succ_lt_succ hjk) ((hfirst j).symm.trans hw)

end Sys2Proof.Machine
end

section
/-! SUPPORT. The block takes no exception: no step faults, the flags that record an error steer nothing, and polling
changes nothing (R76, R95, R97, R99). -/

namespace Sys2Proof.Machine

/-! ### No step faults -/

/-- A host action completes or is refused; every fault is raised by the decoder (R95). -/
theorem hostTurn_not_fault (a : HostAction) (s : State) (f : Fault) : hostTurn a s ≠ .fault f := by
  cases a with
  | reset | read => nofun
  | start | place | writeIn | readIn | writeOut | readOut | collect =>
    simp only [hostTurn, hostStart, hostPlace, hostWriteIn, hostReadIn, hostWriteOut, hostReadOut, hostCollect]
    repeat' split
    all_goals simp

/-- Settles O26: a decoder's turn of a sound state completes, and the host's turn faults in no state. -/
theorem noStepFaults : Obligations.NoStepFaults := by
  intro s f h
  unfold step
  split
  next t ht =>
    obtain ⟨u, hu⟩ : ∃ u, decoderTurn t = .next u := decoderTurn_completes (by simpa [ht] using h.nextTurn)
    rw [hu]
    nofun
  next a t _ => exact hostTurn_not_fault a t f

/-! ### The flags steer nothing -/

/-- `s` with other values of the two sticky flags. -/
def State.withFlags (s : State) (p q : Bool) : State := { s with trunc := p, clamp := q }

/-- The result `r` is the answer `t` but for the two flags. -/
def AnswersButFlags (r : Result) (t : State) : Prop := ∃ p q, r = .next (t.withFlags p q)

section
variable {s t : State} (p q : Bool)

theorem memWrite_withFlags {j : Nat} {v : Byte} (h : memWrite s j v = .ok t) :
    memWrite (s.withFlags p q) j v = .ok (t.withFlags p q) := by
  obtain ⟨hs, rfl⟩ := memWrite_eq_ok.mp h
  exact memWrite_eq_ok.mpr ⟨hs, rfl⟩

theorem copyRun_withFlags {n src dst : Nat} (h : copyRun n src dst s = .ok t) :
    copyRun n src dst (s.withFlags p q) = .ok (t.withFlags p q) := by
  have := copyRun_frame (·.withFlags p q) (fun _ => rfl) (fun _ _ => rfl) n src dst s fun _ _ _ _ _ => rfl
  rwa [h] at this

theorem fillRun_withFlags {n dst : Nat} {v : Byte} (h : fillRun n dst v s = .ok t) :
    fillRun n dst v (s.withFlags p q) = .ok (t.withFlags p q) := by
  have := fillRun_frame (·.withFlags p q) (fun _ => rfl) (fun _ _ => rfl) n dst v s
  rwa [h] at this

/-- A unit's body writes the flags and does not read them (R65 to R67). -/
theorem exec_withFlags {i : Instr} (h : exec i s = .next t) : AnswersButFlags (exec i (s.withFlags p q)) t := by
  cases i with
  | nop => cases h; exact ⟨p, q, rfl⟩
  | lit m =>
    obtain ⟨u, hu, rfl⟩ := exec_lit_eq_next.mp h
    have hc := copyRun_withFlags (p || decide (s.inRem < litLength m)) (q || decide (s.outRem < litLength m)) hu
    exact ⟨_, _, exec_lit_eq_next.mpr ⟨_, hc, rfl⟩⟩
  | rep m =>
    obtain ⟨hm, ⟨hv, rfl⟩ | ⟨hv, v, -, hr, -⟩⟩ := execRep_next h
    · exact ⟨_, _, exec_rep_missing hm hv⟩
    · rw [exec_rep_value hm hv hr] at h
      obtain ⟨u, hu, rfl⟩ := repEmit_eq_next.mp h
      have hf := fillRun_withFlags p (q || decide (s.outRem < repLength m)) hu
      rw [exec_rep_value (s := s.withFlags p q) hm hv hr]
      exact ⟨_, _, repEmit_eq_next.mpr ⟨_, hf, rfl⟩⟩

/-- The CTRL step's demultiplexing writes the flags and does not read them (R87). -/
theorem engineDemux_withFlags (i : Instr) (s : State) : ∃ p' q',
    engineDemux i (s.withFlags p q) = (engineDemux i s).withFlags p' q' := by
  cases i <;> exact ⟨_, _, rfl⟩

/-- The decoder's turn, on either implementation, writes the flags and does not read them (R97). -/
theorem decoderTurn_withFlags (h : decoderTurn s = .next t) : AnswersButFlags (decoderTurn (s.withFlags p q)) t := by
  cases decoderTurn_next h with
  | quiet hs => exact ⟨p, q, decoderTurn_quiet hs⟩
  | finish hs hb he => exact ⟨p, q, decoderTurn_end hs hb he⟩
  | nop hs hi he c hc | lit hs hi he c hc | repMissing hs hi he c hc | rep hs hi he c hc =>
    rw [decoderTurn_unit hs hi he hc] at h
    rw [decoderTurn_unit (s := s.withFlags p q) hs hi he hc]
    exact exec_withFlags p q h
  | engineFetch hs hi hp he c hc =>
    obtain ⟨p', q', hd⟩ := engineDemux_withFlags p q (decodeByte c) (s.advance 1 0)
    exact ⟨p', q', (decoderTurn_ctrl (s := s.withFlags p q) hs hi hp he hc).trans (congrArg _ hd)⟩
  | engineCopy hs hi hp =>
    rw [decoderTurn_litc hs hi hp] at h
    obtain ⟨hn, b, u, hb, hu, ht⟩ := engineLitc_eq_next.mp h
    rw [decoderTurn_litc (s := s.withFlags p q) hs hi hp, ht]
    exact ⟨p, q, engineLitc_eq_next.mpr ⟨hn, b, _, hb, memWrite_withFlags p q hu, rfl⟩⟩
  | engineMissing hs hi hp hv => exact ⟨_, _, decoderTurn_rfetch_missing hs hi hp hv⟩
  | engineValue hs hi hp hv v hr => exact ⟨_, _, decoderTurn_rfetch_value (s := s.withFlags p q) hs hi hp hv hr⟩
  | engineEmit hs hi hp =>
    rw [decoderTurn_remit hs hi hp] at h
    obtain ⟨hn, u, hu, ht⟩ := engineRemit_eq_next.mp h
    rw [decoderTurn_remit (s := s.withFlags p q) hs hi hp, ht]
    exact ⟨p, q, engineRemit_eq_next.mpr ⟨hn, _, memWrite_withFlags p q hu, rfl⟩⟩

end

/-- Settles O34: over other flags the decoder's turn is the same but for the flags (`decoderTurn_withFlags`). -/
theorem flagsSteerNothing : Obligations.FlagsSteerNothing := fun _ _ p q h => decoderTurn_withFlags p q h

/-! ### Polling -/

/-- A run that completes has a first step that completes. -/
theorem runSteps_succ_eq_next {k : Nat} {s u : State} (h : runSteps (k + 1) s = .next u) :
    ∃ t, step s = .next t ∧ runSteps k t = .next u := by
  cases ht : step s with
  | next t => exact ⟨t, rfl, (runSteps_succ_of_next k ht).symm.trans h⟩
  | fault f => simp [runSteps, ht] at h
  | refused f => simp [runSteps, ht] at h

/-- A READ on the schedule writes its answer, and the mark when that says DONE (R76). -/
theorem step_read_withHost (s : State) (k : Nat) (turns : List Turn) (r : List Reply) (n : Nat) (d : Bool) :
    step (s.withHost (.host (.read k) :: turns) r n d) = .next (s.withHost turns
      (.register k (s.readRegister k) :: r) n (d || Reply.saysDone (.register k (s.readRegister k)))) :=
  step_host_cons rfl (.read k)

/-- A decoder's turn on the schedule writes neither the host's answers, nor its mark, nor the count of draws. -/
theorem step_decoder_withHost {s t : State} (h : decoderTurn s = .next t) (turns : List Turn) (r : List Reply)
    (d : Bool) :
    step (s.withHost (.decoder :: turns) r s.fresh d) = .next (t.withHost turns r t.fresh d) := by
  have hfresh : t.fresh = s.fresh := by rw [decoderMove_frame (decoderTurn_next h)]
  have hturn := decoderTurn_withHost turns r s.fresh d h
  rw [hfresh]
  exact step_decoder_cons rfl hturn

/-- Decoder's turns with READs among them answer what the decoder's turns alone do, but for what the host is told: the
answers go on top of `r`, and the mark `d` is set by one that says DONE (R76, R99). -/
theorem runSteps_with_reads {turns : List Turn} {s u : State} (r : List Reply) (d : Bool) (hsch : s.schedule = [])
    (hturns : ∀ x ∈ turns, x = .decoder ∨ ∃ k, x = .host (.read k))
    (hu : runSteps (turns.count .decoder) s = .next u) :
    ∃ answers, runSteps turns.length (s.withHost turns r s.fresh d) = .next
      { u with replies := answers ++ r, doneRead := d || answers.any Reply.saysDone } := by
  induction turns generalizing s r d with
  | nil =>
    cases hu
    exact ⟨[], by simp [State.withHost, hsch]⟩
  | cons turn turns ih =>
    have hrest := fun x hx => hturns x (List.mem_cons_of_mem turn hx)
    obtain rfl | ⟨k, rfl⟩ := hturns turn List.mem_cons_self
    · rw [List.count_cons_self] at hu
      obtain ⟨t, ht, hu⟩ := runSteps_succ_eq_next hu
      rw [step_of_nil hsch] at ht
      obtain ⟨answers, ha⟩ := ih r d ((decoderTurn_next ht).schedule_eq.trans hsch) hrest hu
      exact ⟨answers, (runSteps_succ_of_next _ (step_decoder_withHost ht turns r d)).trans ha⟩
    · rw [List.count_cons_of_ne (by simp)] at hu
      obtain ⟨answers, ha⟩ := ih _ _ hsch hrest hu
      refine ⟨answers ++ [.register k (s.readRegister k)],
        (runSteps_succ_of_next _ (step_read_withHost s k turns r s.fresh d)).trans (ha.trans ?_)⟩
      simp [Bool.or_assoc, Bool.or_comm (answers.any _)]

/-- Settles O48: at the start the host has the answers and the mark that `s` has. -/
theorem pollingChangesNothing : Obligations.PollingChangesNothing := by
  intro s u turns hturns hu
  exact runSteps_with_reads (s := { s with schedule := [] }) s.replies s.doneRead rfl hturns hu

end Sys2Proof.Machine
end

section
/-! SUPPORT. RESET and power-up (R109 to R111), and the decoder's turn, which is enabled throughout a job (R118). -/

namespace Sys2Proof.Machine

/-! ### RESET by the state it finds -/

/-- In BUSY, RESET gives up the job's output and then clears the registers (R110). -/
theorem State.resetBlock_of_busy {s : State} (hs : s.st = .scan) : s.resetBlock = s.abandonOutput.resetRegisters := by
  rw [State.resetBlock, hs]

/-- Outside BUSY, RESET clears the registers and nothing else (R109). -/
theorem State.resetBlock_of_not_busy {s : State} (hs : s.st ≠ .scan) : s.resetBlock = s.resetRegisters := by
  unfold State.resetBlock
  split
  next h => exact absurd h hs
  all_goals rfl

/-! ### What the host reads after RESET -/

/-- STATUS = 0x00 after RESET: STATE is IDLE, so SHORT is 0 too (R26, R109). -/
theorem State.resetBlock_statusWord (s : State) : s.resetBlock.statusWord = 0x00#8 := by
  obtain ⟨-, -, -, -, htrunc, hclamp, -⟩ := s.resetBlock_registers
  simp [State.statusWord, State.short, stateCode, htrunc, hclamp]

/-- Every host register reads 0 after RESET, under any number (R25, R109). -/
theorem State.resetBlock_readRegister (s : State) (r : Nat) : s.resetBlock.readRegister r = 0 := by
  obtain ⟨hinLen, houtCap, hrd, hwr, -⟩ := s.resetBlock_registers
  match r with
  | 0 => simp [State.readRegister, s.resetBlock_statusWord]
  | 1 => exact hinLen
  | 2 => exact houtCap
  | 3 => exact hrd
  | 4 => exact hwr
  | _ + 5 => rfl

/-! ### The statements -/

/-- Settles O42: the registers are those of `resetBlock_registers`, and outside BUSY only registers are written. -/
theorem resetClearsEveryRegister : Obligations.ResetClearsEveryRegister := by
  intro s
  obtain ⟨hinLen, houtCap, hrd, hwr, htrunc, hclamp, hph, hcnt, hval⟩ := s.resetBlock_registers
  exact ⟨s.resetBlock, rfl, s.resetBlock_st, hinLen, houtCap, hrd, hwr, htrunc, hclamp, hph, hcnt, hval,
    s.resetBlock_frame.1, fun hs => by rw [State.resetBlock_of_not_busy hs, State.resetRegisters_output],
    s.resetBlock_readRegister⟩

/-- Settles O43: OUT is the one that `Mem.scramble` makes, whose bytes `Mem.read_scramble` tells. -/
theorem resetInBusyFreesTheOutput : Obligations.ResetInBusyFreesTheOutput := by
  intro s hs
  refine ⟨s.abandonOutput.resetRegisters, congrArg _ (State.resetBlock_of_busy hs), rfl, rfl,
    fun j hj hsome => ?_, fun j hj => ?_⟩
  · obtain ⟨b, hb⟩ := Option.isSome_iff_exists.mp hsome
    exact (Mem.read_scramble ..).trans (by rw [if_pos hj, hb, Option.map_some])
  · exact (Mem.read_scramble ..).trans (if_neg (Nat.not_lt.mpr hj))

/-- Settles O44: at power-up there is no job, and a RESET writes to each register the value it has. -/
theorem powerUpIsReset : Obligations.PowerUpIsReset :=
  have hreset : State.reset.resetBlock = State.reset := rfl
  ⟨rfl, fun r => hreset ▸ State.reset.resetBlock_readRegister r, rfl, rfl, rfl, congrArg _ hreset⟩

/-- Settles O27: the bytes that the turn reads and stores stand in the job's buffers (`decoderTurn_completes`). -/
theorem decoderTurnAlwaysCompletes : Obligations.DecoderTurnAlwaysCompletes := fun _ h _ => decoderTurn_completes h

end Sys2Proof.Machine
end
